-- ==== Sys2Proof/Word.lean ====
section
/-! DEFINITION. The word types of the block: bytes, 16-bit registers, 32-bit host offsets (00_scope.md R3, R5). -/

namespace Sys2Proof

/-- One byte. Bit 0 is the least significant bit (R5). -/
abbrev Byte := BitVec 8

/-- The value of a 16-bit register, or of a host access of at most two bytes. -/
abbrev Half := BitVec 16

/-- A host offset: the host space is 32 bits wide (R3, R35). -/
abbrev Offset := BitVec 32

end Sys2Proof
end

