-- ==== Sys2Proof/Syntax.lean ====
section
/-! DEFINITION. The commands of the block: one constructor per row of spec/opcode_table.json (30_encoding.md R53, R54). -/

namespace Sys2Proof

/-- What a host write of one byte to CMD performs (R54). -/
inductive Instr where
  /-- Command byte 0x01: pack the header-field registers and the extension bytes of IN into OUT (R62). -/
  | pack
  /-- Command byte 0x02: parse the bytes of IN as a GUE header (R69). -/
  | unpack
  /-- Every other byte: the decode default arm, IllegalCommand (R54, R87). The byte's two fields (R53) are kept. -/
  | illegal (op rsv : BitVec 4)
  deriving DecidableEq, Repr

end Sys2Proof
end

