-- ==== Sys2Proof/WellFormed.lean ====
section
/-! DEFINITION. Which terms of Instr stand for a command byte (30_encoding.md R53, R54). -/

namespace Sys2Proof

/-- PACK and UNPACK always; an `illegal` only if its byte RSV ++ OP is neither 0x01 nor 0x02, the two bytes
that encode a command (R54). -/
def Instr.wellFormed : Instr → Bool
  | .pack => true
  | .unpack => true
  | .illegal op rsv => !(rsv == 0 && (op == 1 || op == 2))

end Sys2Proof
end

