-- ==== Sys2Proof/Decode.lean ====
section
/-! DEFINITION. The decoder of the command byte, total on any bytes, and after it the encoder
(30_encoding.md R53, R54; spec/opcode_table.json). -/

namespace Sys2Proof

/-- Bits hi..lo of a byte as the format CMD8 names them: OP is 3:0 (R53). -/
def cmdOp (v : Byte) : BitVec 4 := v.extractLsb' 0 4

/-- RSV is bits 7:4 of the command byte (R53). -/
def cmdRsv (v : Byte) : BitVec 4 := v.extractLsb' 4 4

/-- R54, its three arms: every byte has exactly one meaning. -/
def decodeByte (v : Byte) : Instr :=
  if v = 0x01#8 then .pack
  else if v = 0x02#8 then .unpack
  else .illegal (cmdOp v) (cmdRsv v)

/-- Why a list of bytes holds no command. -/
inductive DecodeError where
  /-- There is no byte: every command is exactly one byte long (R53). Raised by `decode` only. -/
  | noByte
  deriving DecidableEq, Repr

/-- Reads one command off the front of a list of bytes, and answers it with the bytes that remain. -/
def decode : List Byte → Except DecodeError (Instr × List Byte)
  | [] => .error .noByte
  | v :: rest => .ok (decodeByte v, rest)

/-- The command byte of an instruction: the row's match for PACK and UNPACK, RSV ++ OP otherwise (R53). -/
def encodeByte : Instr → Byte
  | .pack => 0x01#8
  | .unpack => 0x02#8
  | .illegal op rsv => rsv ++ op

/-- Every command is exactly one byte long (R53). -/
def encode (i : Instr) : List Byte := [encodeByte i]

/-- The instruction the decoder reads from a command whose bits are `w`, of which the table gives `nbits`. -/
def decodeTableWord (nbits w : Nat) : Option Instr :=
  match decode [BitVec.ofNat 8 (w % 2 ^ nbits)] with
  | .ok (i, _) => some i
  | .error _ => none

end Sys2Proof
end

