-- ==== Sys2Proof/Config.lean ====
section
/-! DEFINITION. What one implementation fixes, and the free values: constants of which nothing but the type is known. -/

namespace Sys2Proof

/-- By how much the input buffer is larger than the least size the spec allows. An unknown of the implementation
(R2: BUF_CAP is a parameter). DESIGN CHOICE, log 3; safe: a statement holds for every value. -/
opaque Config.bufCapAboveMin : Fin 65408

/-- BUF_CAP, the capacity of IN in bytes: some number with 128 ≤ BUF_CAP ≤ 65535 (R2). -/
def Config.bufCap : Nat := Config.bufCapAboveMin.val + 128

/-- What a host variable holds before the host assigns it, by the variable's number: R61 gives no value.
A free value. DESIGN CHOICE, log 6; safe: a statement holds for every value. -/
opaque Config.hostVarInit : Nat → Half

end Sys2Proof
end

