-- ==== Sys2Proof/Machine/HostScript.lean ====
section
/-! DEFINITION. The host's side: the host-script notation of 30_encoding.md R61, its lines as data, its
pseudo-instructions and their expansion. The host is an agent beside the block (R32, R47); its lines are what the
machine's step performs, one at a time. -/

namespace Sys2Proof.Machine

/-- The number of a host variable (`t` in R61). -/
abbrev HostVar := Nat

/-- The number of a label: a label names a position in the script (R61). -/
abbrev Label := Nat

/-- The data of a host write: a value of the script, or what a host variable holds (R61, line of COPYOUT). -/
inductive HostData where
  | imm (v : Half)
  | var (t : HostVar)
  deriving DecidableEq, Repr

/-- One primitive line (R61). A transaction is a kind, an offset, a width and, for a write, its data; the width is
any number, since R40 gives the widths other than 1 and 2 a fault. -/
inductive HostOp where
  /-- `MemWrite(off, width, v)`; W8 and W16 are the widths 1 and 2. -/
  | write (off : Offset) (width : Nat) (v : HostData)
  /-- `t <- MemRead(off, width)`; R8 and R16 are the widths 1 and 2. -/
  | read (off : Offset) (width : Nat) (t : HostVar)
  /-- `BNE t, v, L`: if host variable t ≠ v, continue at label L. -/
  | bne (t : HostVar) (v : Half) (l : Label)
  /-- `JMP L`. -/
  | jmp (l : Label)
  /-- `HALT`: end of the script. -/
  | halt
  /-- No line of R61: the RESET event of R96 (93 I17: one RESET event) arriving between two lines.
  DESIGN CHOICE, log 11; safe: it adds a behaviour and forces none. -/
  | resetEvent
  deriving DecidableEq, Repr

/-- A line of the host's script with the labels that name its position. R61 says only that a label names a position;
that several may name one is the model's choice. DESIGN CHOICE, log 10; safe: a script need not use it. -/
structure HostLine where
  labels : List Label
  op : HostOp
  deriving DecidableEq, Repr

/-- `W8 off, v`. -/
def w8 (off : Offset) (v : HostData) : HostOp := .write off 1 v

/-- `W16 off, v`. -/
def w16 (off : Offset) (v : HostData) : HostOp := .write off 2 v

/-- `R8 off -> t`. -/
def r8 (off : Offset) (t : HostVar) : HostOp := .read off 1 t

/-- `R16 off -> t`. -/
def r16 (off : Offset) (t : HostVar) : HostOp := .read off 2 t

/-- A line of the script as written: a primitive line, or a pseudo-instruction (R61). -/
inductive ScriptOp where
  | prim (op : HostOp)
  | pack
  | unpack
  | cmd (v : Byte)
  | wbuf (i : Nat) (bytes : List Byte)
  | copyOut (n : Nat)
  | assertEq (off : Offset) (v : Byte)
  deriving DecidableEq, Repr

/-- The variable that COPYOUT and ASSERT name `t` (R61). DESIGN CHOICE, log 15: it has number 0. -/
def scratchVar : HostVar := 0

/-- The label that ASSERT names FAIL (R61). DESIGN CHOICE, log 15: it has number 0. -/
def failLabel : Label := 0

/-- The host offset of IN[i] as the pseudo-instructions write it, 0x10000+i (R38, R61). R61 sets no bound on i; an offset
that passes the 32-bit host space wraps modulo 2^32. DESIGN CHOICE, log 16; unsafe for a WBUF that reaches so far. -/
def inOffset (i : Nat) : Offset := BitVec.ofNat 32 (0x10000 + i)

/-- The host offset of OUT[j], 0x1000+j (R37, R61), wrapping as inOffset does (log 16). -/
def outOffset (j : Nat) : Offset := BitVec.ofNat 32 (0x1000 + j)

/-- `WBUF i, b0 b1 …`: one W8 for each byte, from IN[i] on (R61). -/
def expandWbuf (i : Nat) : List Byte → List HostOp
  | [] => []
  | b :: rest => w8 (inOffset i) (.imm (b.setWidth 16)) :: expandWbuf (i + 1) rest

/-- `COPYOUT n` from byte j on: read OUT[j] into t, write t to IN[j] (R61). -/
def expandCopyOut (j : Nat) : Nat → List HostOp
  | 0 => []
  | n + 1 => r8 (outOffset j) scratchVar :: w8 (inOffset j) (.var scratchVar) :: expandCopyOut (j + 1) n

/-- The primitive lines a line of the script stands for (R61). -/
def expand : ScriptOp → List HostOp
  | .prim op => [op]
  | .pack => [w8 0 (.imm 0x01#16)]
  | .unpack => [w8 0 (.imm 0x02#16)]
  | .cmd v => [w8 0 (.imm (v.setWidth 16))]
  | .wbuf i bytes => expandWbuf i bytes
  | .copyOut n => expandCopyOut 0 n
  | .assertEq off v => [r8 off scratchVar, .bne scratchVar (v.setWidth 16) failLabel]

/-- The rest of a script as primitive lines, where `pending` are labels that still wait for a line: those of lines before
that expand to nothing (COPYOUT 0, a WBUF of no bytes), whose position is that of the next primitive line. -/
def assembleFrom (pending : List Label) : List (List Label × ScriptOp) → List HostLine
  | [] => if pending = [] then [] else [⟨pending, .halt⟩]
  | (ls, op) :: rest =>
    match expand op with
    | [] => assembleFrom (pending ++ ls) rest
    | first :: more => ⟨pending ++ ls, first⟩ :: (more.map (⟨[], ·⟩) ++ assembleFrom [] rest)

/-- The whole script as primitive lines: the label of a line as written names the position where its expansion begins.
A label with nothing after it names the end of the script, for which a HALT line stands. DESIGN CHOICE, log 10. -/
def assemble (script : List (List Label × ScriptOp)) : List HostLine := assembleFrom [] script

/-- The position a label names: the first line that bears it. DESIGN CHOICE, log 10. -/
def labelPos (l : Label) : List HostLine → Option Nat
  | [] => none
  | line :: rest => if l ∈ line.labels then some 0 else (labelPos l rest).map (· + 1)

/-- Whether the label a line jumps to, if it jumps, names a position of the script. -/
def targetDefined (script : List HostLine) (line : HostLine) : Bool :=
  match line.op with
  | .bne _ _ l => (labelPos l script).isSome
  | .jmp l => (labelPos l script).isSome
  | .write _ _ _ => true
  | .read _ _ _ => true
  | .halt => true
  | .resetEvent => true

/-- No label names two positions. -/
def labelsDistinct (script : List HostLine) : Bool :=
  decide (script.Pairwise fun a b => ∀ l ∈ a.labels, l ∉ b.labels)

/-- A script whose jumps all have somewhere to go and whose labels are clear (R61; log 10). -/
def scriptWellFormed (script : List HostLine) : Bool :=
  script.all (targetDefined script) && labelsDistinct script

/-- The script with `line` at position `n`; the positions before it that the script lacks become HALT lines. -/
def placeLine (line : HostLine) : Nat → List HostLine → List HostLine
  | 0, [] => [line]
  | 0, _ :: rest => line :: rest
  | n + 1, [] => ⟨[], .halt⟩ :: placeLine line n []
  | n + 1, first :: rest => first :: placeLine line n rest

end Sys2Proof.Machine
end

