-- ==== Sys2Proof/Machine/State.lean ====
section
/-! DEFINITION. The state as plain data (10_state.md R7 to R34), the names of the registers, the model faults
(60_exceptions.md R90), and the state after reset (70_reset_and_hazards.md R96). -/

namespace Sys2Proof.Machine

/-- The registers, by the spec's names (10_state.md, register map, R10 to R30). -/
inductive Reg where
  | cmd | status
  | hVersion | hC | hProtocol | hFlags | inLen
  | outLen | pHlen
  | uVersion | uC | uHlen | uProtocol | uFlags | uExtOff | uExtLen | uPayOff | uPayLen
  deriving DecidableEq, Repr

/-- What the host may do with a register or buffer byte (10_state.md, register map). -/
inductive AccessRight where
  | rw | ro | wo
  deriving DecidableEq, Repr

/-- One row of the register map: lowest offset, size in bytes, access right. -/
structure RegRow where
  offset : Nat
  size : Nat
  right : AccessRight
  deriving DecidableEq, Repr

/-- The byte of the block's state that a host offset maps to (20_memory.md R36, R37, R38). -/
inductive Place where
  | reg (i : Nat)
  | out (i : Nat)
  | inp (i : Nat)
  deriving DecidableEq, Repr

/-- The typed failures (10_state.md R12): status results, not traps. -/
inductive Failure where
  | truncatedHeader | unsupportedFlags | extensionTooLarge | illegalCommand
  deriving DecidableEq, Repr

/-- Which command ran, as STATUS.LAST tells it (10_state.md R13). -/
inductive Command where
  | pack | unpack | noCommand
  deriving DecidableEq, Repr

/-- Whether a host access reads or writes (30_encoding.md R61). -/
inductive AccessKind where
  | read | write
  deriving DecidableEq, Repr

/-- What raised a model fault: R90 has the model record the access or the command. -/
inductive Origin where
  | access (kind : AccessKind) (off : Offset) (width : Nat)
  | command (i : Instr)
  deriving DecidableEq, Repr

/-- The unwritten operand that a read met: a register of a command, a byte of IN of a command, or the byte at a
host offset. -/
inductive Unwritten where
  | reg (r : Reg)
  | inByte (i : Nat)
  | hostByte (off : Offset)
  deriving DecidableEq, Repr

/-- The model faults: the four of R90 and no other. Each is safe: the model stops where the spec leaves what a
realisation does unspecified. -/
inductive Fault where
  /-- A host read or a command's operand read of an unwritten byte (R9, R43, R62, R69). Safe. -/
  | unwrittenRead (by_ : Origin) (what : Unwritten)
  /-- A host access to an unmapped or reserved offset, a write to a read-only byte, a read of CMD, or a width
  other than 1 and 2 (R31, R39, R40, R42, R43). Safe. -/
  | accessFault (by_ : Origin)
  /-- A 2-byte host access at an odd offset (R40). Safe. -/
  | misaligned (by_ : Origin)
  /-- PACK or UNPACK with IN_LEN > BUF_CAP (R62, R69). Safe. -/
  | lengthOutOfRange (by_ : Origin)
  deriving DecidableEq, Repr

/-- What the model gives no meaning to. -/
inductive Refusal where
  /-- An instruction whose arm of exec has no meaning yet; none is left. Safe. -/
  | notModelled (mnemonic : String)
  /-- The host's script jumps to a label no line bears: R61 gives such a script no meaning, and no command is
  involved. Raised by the lines BNE and JMP only. Log 10. Safe. -/
  | undefinedLabel (l : Label)
  deriving DecidableEq, Repr

/-- The whole state. The block is `regs`, `out` and `inBuf`, the three byte arrays of R7, each a list of
(index, byte) pairs with indices strictly rising, in which an unlisted index is an UNWRITTEN byte (R8; log 1, 2). -/
structure State where
  /-- BUF_CAP, the capacity of IN (R2). The block's parameter: no step changes it. Log 3. -/
  bufCap : Nat
  /-- REGS[0..63], by register byte (R36). -/
  regs : List Host.Cell
  /-- OUT[0..127] (R37). -/
  out : List Host.Cell
  /-- IN[0..BUF_CAP-1] (R38). -/
  inBuf : List Host.Cell
  /-- The host's script (R61). The host's, not the block's. Log 4. -/
  script : List HostLine
  /-- The host's position in its script (R32, R61). Log 4. -/
  pos : Nat
  /-- The host variables assigned so far, by number (R61). Log 6. -/
  vars : List (Nat × Half)
  deriving DecidableEq, Repr

/-- The machine right after reset (R96): STATUS (offset 0x01) is 0x00 and every other byte is unwritten. The host
has no script yet (log 4), and BUF_CAP is the implementation's (log 3). -/
def State.reset : State where
  bufCap := Config.bufCap
  regs := [(0x01, 0x00#8)]
  out := []
  inBuf := []
  script := []
  pos := 0
  vars := []

end Sys2Proof.Machine
end

