-- ==== Sys2Proof/Machine/Flags.lean ====
section
/-! DEFINITION. The flags converter (42_flags_converter.md R78, R79), the byte order of the register interface
(20_memory.md R41) and the fields of STATUS (10_state.md R11 to R14). -/

namespace Sys2Proof.Machine

/-- The low byte of a 16-bit value, v[7:0]. -/
def lowByte (v : Half) : Byte := v.extractLsb' 0 8

/-- The high byte of a 16-bit value, v[15:8]. -/
def highByte (v : Half) : Byte := v.extractLsb' 8 8

/-- The 16-bit value hi ++ lo (R5, R41). -/
def joinBytes (hi lo : Byte) : Half := hi ++ lo

/-- FLAGS_TO_WIRE: wire bytes 2 and 3 of a flags value, the most significant byte first (R78). -/
def flagsToWire (f : Half) : Byte × Byte := (highByte f, lowByte f)

/-- FLAGS_FROM_WIRE: the flags value of wire bytes 2 and 3 (R79). -/
def flagsFromWire (b2 b3 : Byte) : Half := joinBytes b2 b3

/-- STATUS.ERR of a typed failure (R12). -/
def Failure.code : Failure → BitVec 3
  | .truncatedHeader => 1
  | .unsupportedFlags => 2
  | .extensionTooLarge => 3
  | .illegalCommand => 4

/-- STATUS.LAST of the command that ran (R13). -/
def Command.code : Command → BitVec 2
  | .pack => 1
  | .unpack => 2
  | .noCommand => 3

/-- STATUS from its fields: bits 7:6 zero, LAST at 5:4, ERR at 3:1, OK at 0 (R11). -/
def statusByte (ok : Bool) (err : BitVec 3) (last : BitVec 2) : Byte :=
  (0#2 ++ last) ++ (err ++ BitVec.ofBool ok)

/-- STATUS after a command succeeded: OK = 1, ERR = 0 (R11, R13). -/
def successStatus (c : Command) : Byte := statusByte true 0 c.code

/-- STATUS after a command failed: OK = 0, ERR the failure's code (R83). -/
def failureStatus (c : Command) (f : Failure) : Byte := statusByte false f.code c.code

end Sys2Proof.Machine
end

