-- ==== Sys2Proof/Machine/Ops.lean ====
section
/-! DEFINITION. The named operations over the three byte arrays and the registers, the host's byte accesses, a typed
failure, and the RESET event (10_state.md, 20_memory.md, 60_exceptions.md R83, R88, 70_reset_and_hazards.md R96). -/

namespace Sys2Proof.Machine

/-! ### Sparse arrays: (index, value) pairs -/

/-- What an index that is not listed reads as: no value, the byte is unwritten (R8, R9; log 1). -/
abbrev Memory.unlisted {α : Type} : Option α := none

/-- The value at an index. -/
def Memory.read {α : Type} : List (Nat × α) → Nat → Option α
  | [], _ => Memory.unlisted
  | (k, v) :: rest, a => if k = a then some v else Memory.read rest a

/-- The array with `v` written at index `a`. -/
def Memory.write {α : Type} (a : Nat) (v : α) : List (Nat × α) → List (Nat × α)
  | [] => [(a, v)]
  | (k, w) :: rest =>
    if a < k then (a, v) :: (k, w) :: rest
    else if a = k then (a, v) :: rest
    else (k, w) :: Memory.write a v rest

/-- The array with every index for which `p` holds poisoned, that is unwritten (00_scope.md R5, `poison`). -/
def Memory.poison {α : Type} (p : Nat → Bool) (m : List (Nat × α)) : List (Nat × α) :=
  m.filter (fun c => !p c.1)

/-- The array that holds these values at the indices from `i` on, and nothing else. -/
def Memory.ofBytes {α : Type} (i : Nat) : List α → List (Nat × α)
  | [] => []
  | b :: rest => (i, b) :: Memory.ofBytes (i + 1) rest

/-- The canonical form: indices strictly rising, so that equal arrays are equal data. An entry always holds a value,
and an unlisted index holds none, so no entry equals what an unlisted index reads as. -/
abbrev Memory.wf {α : Type} (m : List (Nat × α)) : Prop := m.Pairwise (fun c d => c.1 < d.1)

/-! ### The register map (10_state.md) -/

/-- The register map, row by row (10_state.md R10 to R30). -/
def Reg.row : Reg → RegRow
  | .cmd => ⟨0x00, 1, .wo⟩
  | .status => ⟨0x01, 1, .ro⟩
  | .hVersion => ⟨0x02, 1, .rw⟩
  | .hC => ⟨0x03, 1, .rw⟩
  | .hProtocol => ⟨0x04, 1, .rw⟩
  | .hFlags => ⟨0x06, 2, .rw⟩
  | .inLen => ⟨0x08, 2, .rw⟩
  | .outLen => ⟨0x0A, 2, .ro⟩
  | .pHlen => ⟨0x0C, 1, .ro⟩
  | .uVersion => ⟨0x10, 1, .ro⟩
  | .uC => ⟨0x11, 1, .ro⟩
  | .uHlen => ⟨0x12, 1, .ro⟩
  | .uProtocol => ⟨0x13, 1, .ro⟩
  | .uFlags => ⟨0x14, 2, .ro⟩
  | .uExtOff => ⟨0x16, 2, .ro⟩
  | .uExtLen => ⟨0x18, 2, .ro⟩
  | .uPayOff => ⟨0x1A, 2, .ro⟩
  | .uPayLen => ⟨0x1C, 2, .ro⟩

/-- Every register of the map. -/
def Reg.all : List Reg :=
  [.cmd, .status, .hVersion, .hC, .hProtocol, .hFlags, .inLen, .outLen, .pHlen,
   .uVersion, .uC, .uHlen, .uProtocol, .uFlags, .uExtOff, .uExtLen, .uPayOff, .uPayLen]

/-- Whether byte `a` of REGS belongs to the register. -/
def Reg.covers (r : Reg) (a : Nat) : Bool :=
  decide (r.row.offset ≤ a) && decide (a < r.row.offset + r.row.size)

/-- The register that byte `a` of REGS belongs to; none for the reserved offsets (R31). -/
def regAt (a : Nat) : Option Reg := Reg.all.find? (fun r => r.covers a)

/-- `x[NAME]`: the value of a register, defined only when every one of its bytes is written (R8). A 16-bit register
has its low byte at the lower offset (R41); an 8-bit register's value is given with zeros above. -/
def readReg (r : Reg) (s : State) : Option Half :=
  match Memory.read s.regs r.row.offset with
  | none => none
  | some lo =>
    if r.row.size = 1 then some (joinBytes 0 lo)
    else
      match Memory.read s.regs (r.row.offset + 1) with
      | none => none
      | some hi => some (joinBytes hi lo)

/-- `x[NAME] <- v`: v is truncated to the register's width (00_scope.md R5). -/
def writeReg (r : Reg) (v : Half) (s : State) : State :=
  { s with
    regs :=
      if r.row.size = 1 then Memory.write r.row.offset (lowByte v) s.regs
      else Memory.write (r.row.offset + 1) (highByte v) (Memory.write r.row.offset (lowByte v) s.regs) }

/-- Poisons every byte of the registers listed. -/
def poisonRegs (rs : List Reg) (s : State) : State :=
  { s with regs := Memory.poison (fun a => rs.any (fun r => r.covers a)) s.regs }

/-- The registers of the PACK result set (R34); OUT is its third part. -/
def packResultRegs : List Reg := [.outLen, .pHlen]

/-- The registers of the UNPACK result set (R34). -/
def unpackResultRegs : List Reg :=
  [.uVersion, .uC, .uHlen, .uProtocol, .uFlags, .uExtOff, .uExtLen, .uPayOff, .uPayLen]

/-- Poisons a command's result set (R88): PACK's is OUT, OUT_LEN and P_HLEN, UNPACK's the nine U_ registers; a byte
that encodes no command poisons nothing (R87). -/
def poisonResults : Command → State → State
  | .pack, s => { poisonRegs packResultRegs s with out := [] }
  | .unpack, s => poisonRegs unpackResultRegs s
  | .noCommand, s => s

/-- `raise Fail(code)`, the block's whole failure mechanism (R83): the failing command's result set is poisoned and
STATUS written with OK = 0, the code in ERR and the command in LAST. Nothing is saved, no mode changes and control
moves nowhere, so there is no return from a failure either (R91). -/
def raiseFail (c : Command) (f : Failure) (s : State) : State :=
  writeReg .status (joinBytes 0 (failureStatus c f)) (poisonResults c s)

/-- OUT holds these bytes from OUT[0] on, and every later byte of OUT is poisoned (R62, R67). -/
def writeOut (bytes : List Byte) (s : State) : State :=
  { s with out := Memory.ofBytes 0 bytes }

/-! ### The host space (20_memory.md) -/

/-- The size of REGS (R7). -/
def regsSize : Nat := 64

/-- OUT_CAP (R3). -/
def outCap : Nat := 128

/-- Where OUT begins in the host space (R37). -/
def outBase : Nat := 0x1000

/-- Where IN begins in the host space (R38). -/
def inBase : Nat := 0x10000

/-- The state byte at a host offset; none for an unmapped one (R36 to R39). -/
def locate (cap : Nat) (a : Offset) : Option Place :=
  if a.toNat < regsSize then some (.reg a.toNat)
  else if outBase ≤ a.toNat ∧ a.toNat < outBase + outCap then some (.out (a.toNat - outBase))
  else if inBase ≤ a.toNat ∧ a.toNat < inBase + cap then some (.inp (a.toNat - inBase))
  else none

/-- The access right of a state byte; a reserved byte of REGS has none (R31, R36, R37, R38). -/
def Place.right : Place → Option AccessRight
  | .reg i => (regAt i).map (fun r => r.row.right)
  | .out _ => some .ro
  | .inp _ => some .rw

/-- What a state byte holds; none where it is unwritten. -/
def Place.read (s : State) : Place → Option Byte
  | .reg i => Memory.read s.regs i
  | .out i => Memory.read s.out i
  | .inp i => Memory.read s.inBuf i

/-- The byte that the state holds at a host offset, whatever the host may do there: none where the offset is
unmapped or the byte unwritten. -/
def peek (s : State) (a : Offset) : Option Byte :=
  match locate s.bufCap a with
  | none => none
  | some p => p.read s

/-- What a host write of byte v stores in byte `a` of REGS: H_VERSION keeps v[1:0], H_C keeps v[0] (R15, R16, R42). -/
def storedByte (a : Nat) (v : Byte) : Byte :=
  match regAt a with
  | some .hVersion => v &&& 0x03#8
  | some .hC => v &&& 0x01#8
  | _ => v

/-- Writes a state byte as a host write stores it (R42). -/
def Place.write (v : Byte) (s : State) : Place → State
  | .reg i => { s with regs := Memory.write i (storedByte i v) s.regs }
  | .out i => { s with out := Memory.write i v s.out }
  | .inp i => { s with inBuf := Memory.write i v s.inBuf }

/-- A host read of one byte (R43), as part of the access `o`. -/
def readByte (o : Origin) (a : Offset) (s : State) : Except Fault Byte :=
  match locate s.bufCap a with
  | none => .error (.accessFault o)
  | some p =>
    match p.right with
    | none => .error (.accessFault o)
    | some .wo => .error (.accessFault o)
    | some .ro | some .rw =>
      match p.read s with
      | none => .error (.unwrittenRead o (.hostByte a))
      | some v => .ok v

/-- A host write of one byte that performs no command (R42), as part of the access `o`: RW bytes are stored, all
others fault. CMD faults here: a 2-byte access never performs a command (R10, R40). -/
def storeByte (o : Origin) (a : Offset) (v : Byte) (s : State) : Except Fault State :=
  match locate s.bufCap a with
  | none => .error (.accessFault o)
  | some p =>
    match p.right with
    | some .rw => .ok (p.write v s)
    | some .ro | some .wo | none => .error (.accessFault o)

/-- Whether an offset is odd. -/
def isOdd (a : Offset) : Bool := a.toNat % 2 == 1

/-- `MemRead(a, width)` (R40, R41, R43). The checks go: width, alignment, the byte at a, the byte at a+1 (log 8). -/
def memRead (a : Offset) (width : Nat) (s : State) : Except Fault Half :=
  let o := Origin.access .read a width
  if width = 1 then
    match readByte o a s with
    | .error f => .error f
    | .ok v => .ok (joinBytes 0 v)
  else if width = 2 then
    if isOdd a then .error (.misaligned o)
    else
      match readByte o a s with
      | .error f => .error f
      | .ok lo =>
        match readByte o (a + 1) s with
        | .error f => .error f
        | .ok hi => .ok (joinBytes hi lo)
  else .error (.accessFault o)

/-- `MemWrite(a, width, v)` for a write that performs no command (R40, R41, R42): nothing is stored unless every byte
of the access can be (R40). The checks go as in memRead (log 8). -/
def memStore (a : Offset) (width : Nat) (v : Half) (s : State) : Except Fault State :=
  let o := Origin.access .write a width
  if width = 1 then storeByte o a (lowByte v) s
  else if width = 2 then
    if isOdd a then .error (.misaligned o)
    else
      match storeByte o a (lowByte v) s with
      | .error f => .error f
      | .ok s1 => storeByte o (a + 1) (highByte v) s1
  else .error (.accessFault o)

/-! ### Reset, and the host's own state -/

/-- The RESET event (R96): STATUS becomes 0x00, every other byte unwritten. The host and BUF_CAP are no state of
the block and stay (log 11). -/
def applyReset (s : State) : State :=
  { s with regs := [(0x01, 0x00#8)], out := [], inBuf := [] }

/-- The host goes on to its next line. -/
def advance (s : State) : State := { s with pos := s.pos + 1 }

/-- What a host variable holds: the value last assigned, or its free first value (log 6). -/
def hostVar (t : HostVar) (s : State) : Half :=
  match Memory.read s.vars t with
  | some v => v
  | none => Config.hostVarInit t

/-- Assigns a host variable. -/
def setHostVar (t : HostVar) (v : Half) (s : State) : State :=
  { s with vars := Memory.write t v s.vars }

/-- The value a host write carries (R61). -/
def hostData (d : HostData) (s : State) : Half :=
  match d with
  | .imm v => v
  | .var t => hostVar t s

end Sys2Proof.Machine
end

