-- ==== Sys2Proof/Machine/Operands.lean ====
section
/-! DEFINITION. The operands of the commands: register and IN reads that fault where a byte is unwritten
(10_state.md R9), and the parts of the header (30_encoding.md R55 to R59, 40_pack.md R63 to R65). -/

namespace Sys2Proof.Machine

/-- What a command answers. -/
abbrev Answer := Host.Outcome State Fault Refusal

/-- `x[NAME]` as an operand of command `i`: UnwrittenRead if any byte of NAME is unwritten (R9), else `k` goes on
with the value. -/
def needReg (i : Instr) (r : Reg) (s : State) (k : Half → Answer) : Answer :=
  match readReg r s with
  | none => .fault (.unwrittenRead (.command i) (.reg r))
  | some v => k v

/-- `IN[j]` as an operand of command `i` (R9). -/
def needIn (i : Instr) (j : Nat) (s : State) (k : Byte → Answer) : Answer :=
  match Memory.read s.inBuf j with
  | none => .fault (.unwrittenRead (.command i) (.inByte j))
  | some v => k v

/-- IN[j], IN[j+1], … for `n` bytes, in rising order as operands of command `i` (R62, the copy loop). -/
def needInRange (i : Instr) (j : Nat) : Nat → State → (List Byte → Answer) → Answer
  | 0, _, k => k []
  | n + 1, s, k => needIn i j s (fun b => needInRange i (j + 1) n s (fun bs => k (b :: bs)))

/-- The two commands' first steps: IN_LEN, then the check against BUF_CAP (R62, R69, R89). -/
def needLength (i : Instr) (s : State) (k : Nat → Answer) : Answer :=
  needReg i .inLen s (fun n =>
    if n.toNat > s.bufCap then .fault (.lengthOutOfRange (.command i)) else k n.toNat)

/-- The fixed part of the header, HDR_FIXED (R3). -/
def hdrFixed : Nat := 4

/-- MAX_HLEN (R3). -/
def maxHlen : Nat := 31

/-- hlen = ceil(n / 4) = (n + 3) div 4, over exact integers (R63). -/
def hlenOf (n : Nat) : Nat := (n + 3) / 4

/-- Header byte 0: ver[1:0] ++ c[0] ++ hlen[4:0] (R55, R64). -/
def headerByte0 (ver : BitVec 2) (c : BitVec 1) (hlen : BitVec 5) : Byte := (ver ++ c) ++ hlen

/-- version, bits 7:6 of byte 0 (R55). -/
def versionOf (b0 : Byte) : BitVec 2 := b0.extractLsb' 6 2

/-- C, bit 5 of byte 0 (R55). -/
def controlOf (b0 : Byte) : BitVec 1 := b0.extractLsb' 5 1

/-- hlen, bits 4:0 of byte 0 (R55). -/
def headerLenOf (b0 : Byte) : BitVec 5 := b0.extractLsb' 0 5

/-- The total length of a header in bytes, 4 + 4×hlen (R4, R59). -/
def headerBytes (hlen : Nat) : Nat := hdrFixed + 4 * hlen

/-- The extension bytes zero-padded to 4×hlen bytes (R65). -/
def padExtension (ext : List Byte) : List Byte :=
  ext ++ List.replicate (4 * hlenOf ext.length - ext.length) 0x00#8

/-- The whole output of PACK, OUT[0 .. 4+4×hlen-1] (R62). -/
def packBytes (ver : BitVec 2) (c : BitVec 1) (proto : Byte) (flags : Half) (ext : List Byte) : List Byte :=
  [headerByte0 ver c (BitVec.ofNat 5 (hlenOf ext.length)), proto, (flagsToWire flags).1, (flagsToWire flags).2]
    ++ padExtension ext

end Sys2Proof.Machine
end

