-- ==== Sys2Proof/Machine/Illegal.lean ====
section
/-! DEFINITION. IllegalCommand: a CMD byte that encodes no command (60_exceptions.md R87, 30_encoding.md R54). -/

namespace Sys2Proof.Machine

/-- STATUS becomes 0x38, nothing is poisoned and nothing else changes, whatever the byte's fields (R87). -/
def execIllegal (_op _rsv : BitVec 4) (s : State) : Answer :=
  .next (raiseFail .noCommand .illegalCommand s)

end Sys2Proof.Machine
end

