-- ==== Sys2Proof/Machine/Pack.lean ====
section
/-! DEFINITION. PACK, the header bit-field packer (40_pack.md R62 to R68). -/

namespace Sys2Proof.Machine

/-- What a successful PACK leaves (R62): the wire bytes in OUT and nothing after them, OUT_LEN, P_HLEN, STATUS. -/
def packDone (ver : BitVec 2) (c : BitVec 1) (proto : Byte) (flags : Half) (ext : List Byte) (s : State) : State :=
  writeReg .status (joinBytes 0 (successStatus .pack))
    (writeReg .pHlen (BitVec.ofNat 16 (hlenOf ext.length))
      (writeReg .outLen (BitVec.ofNat 16 (headerBytes (hlenOf ext.length)))
        (writeOut (packBytes ver c proto flags ext) s)))

/-- PACK (R62). The reads come in the order of its pseudocode (R89); hlen is compared with 31 as an exact integer
before it is cut to 5 bits (R63), and before any byte of IN is read. -/
def execPack (s : State) : Answer :=
  needLength .pack s (fun n =>
    needReg .pack .hVersion s (fun ver =>
      needReg .pack .hC s (fun c =>
        needReg .pack .hProtocol s (fun proto =>
          needReg .pack .hFlags s (fun flags =>
            if hlenOf n > maxHlen then .next (raiseFail .pack .extensionTooLarge s)
            else
              needInRange .pack 0 n s (fun ext =>
                .next (packDone (ver.extractLsb' 0 2) (c.extractLsb' 0 1) (lowByte proto) flags ext s)))))))

end Sys2Proof.Machine
end

