-- ==== Sys2Proof/Machine/Unpack.lean ====
section
/-! DEFINITION. UNPACK, the header bit-field unpacker (41_unpack.md R69 to R75). -/

namespace Sys2Proof.Machine

/-- What a successful UNPACK leaves (R69): the decoded fields, the two views and STATUS. -/
def unpackDone (n : Nat) (b0 proto : Byte) (flags : Half) (s : State) : State :=
  let hlen := (headerLenOf b0).toNat
  writeReg .status (joinBytes 0 (successStatus .unpack))
    (writeReg .uPayLen (BitVec.ofNat 16 (n - headerBytes hlen))
      (writeReg .uPayOff (BitVec.ofNat 16 (headerBytes hlen))
        (writeReg .uExtLen (BitVec.ofNat 16 (4 * hlen))
          (writeReg .uExtOff (BitVec.ofNat 16 hdrFixed)
            (writeReg .uFlags flags
              (writeReg .uProtocol (joinBytes 0 proto)
                (writeReg .uHlen ((headerLenOf b0).setWidth 16)
                  (writeReg .uC ((controlOf b0).setWidth 16)
                    (writeReg .uVersion ((versionOf b0).setWidth 16) s)))))))))

/-- UNPACK (R69): its failures in the order of R70, its reads in the order of its pseudocode (R89). It reads no byte
of IN but the first four (R71). -/
def execUnpack (s : State) : Answer :=
  needLength .unpack s (fun n =>
    if n < hdrFixed then .next (raiseFail .unpack .truncatedHeader s)
    else
      needIn .unpack 0 s (fun b0 =>
        needIn .unpack 1 s (fun b1 =>
          needIn .unpack 2 s (fun b2 =>
            needIn .unpack 3 s (fun b3 =>
              if flagsFromWire b2 b3 ≠ 0 then .next (raiseFail .unpack .unsupportedFlags s)
              else if n < headerBytes (headerLenOf b0).toNat then .next (raiseFail .unpack .truncatedHeader s)
              else .next (unpackDone n b0 b1 (flagsFromWire b2 b3) s))))))

end Sys2Proof.Machine
end

