-- ==== Sys2Proof/Machine/HostAccess.lean ====
section
/-! DEFINITION. What one line of the host does to the machine (20_memory.md R42 to R47, 30_encoding.md R61): the
accesses, the command that a write to CMD performs, the host's control flow and the RESET event. -/

namespace Sys2Proof.Machine

/-- Whether a host write performs a command: a 1-byte write to the write-only byte CMD (R10, R42). -/
def isCommandWrite (a : Offset) (width : Nat) (s : State) : Bool :=
  width == 1 && (((locate s.bufCap a).bind Place.right) == some AccessRight.wo)

/-- `MemWrite(a, width, v)` (R40 to R42): a 1-byte write to CMD performs the command its byte encodes (R54), whole
and before anything later (R45); CMD itself stores nothing. Every other write stores or faults. -/
def memWrite (a : Offset) (width : Nat) (v : Half) (s : State) : Answer :=
  if isCommandWrite a width s then exec (decodeByte (lowByte v)) s
  else
    match memStore a width v s with
    | .ok t => .next t
    | .error f => .fault f

/-- A host jump to a label (R61). -/
def jumpTo (l : Label) (s : State) : Answer :=
  match labelPos l s.script with
  | some p => .next { s with pos := p }
  | none => .refused (.undefinedLabel l)

/-- What one line does (R61). The host stands at the next line while an access takes effect, so an access and the
move to the next line are one step. At HALT the host makes no more accesses and nothing changes (log 5). -/
def runLine (op : HostOp) (s : State) : Answer :=
  match op with
  | .write a width d => memWrite a width (hostData d s) (advance s)
  | .read a width t =>
    match memRead a width s with
    | .ok v => .next (setHostVar t v (advance s))
    | .error f => .fault f
  | .bne t v l => if hostVar t s ≠ v then jumpTo l s else .next (advance s)
  | .jmp l => jumpTo l s
  | .halt => .next s
  | .resetEvent => .next (applyReset (advance s))

/-- The line at the host's position; none past the end of the script. -/
def currentLine (s : State) : Option HostLine := s.script[s.pos]?

/-- One step of the machine: the host performs its current line. With no line left the host makes no access and
nothing changes (log 5). -/
def hostStep (s : State) : Answer :=
  match currentLine s with
  | none => .next s
  | some line => runLine line.op s

/-- The host's line that writes a command byte of value `w` to CMD (R10, R54). -/
def commandLine (nbits w : Nat) : HostLine :=
  ⟨[], w8 0 (.imm (BitVec.ofNat 16 (w % 2 ^ nbits % 256)))⟩

end Sys2Proof.Machine
end

