-- ==== Sys2Proof/Machine/Step.lean ====
section
/-! DEFINITION. The step, and the placing of a command where the step takes its next one from. -/

namespace Sys2Proof.Machine

/-- One step: one line of the host, a command included (70_reset_and_hazards.md R102; 20_memory.md R45). -/
def step (s : State) : Host.Outcome State Fault Refusal := Sys2Proof.Machine.hostStep s

/-- The state in which the host's next line writes the command byte `w` to CMD. The block fetches nothing (R49): the
host's line is what brings a command (log 4). -/
def State.withFetchWord (s : State) (nbits w : Nat) : State :=
  { s with script := Sys2Proof.Machine.placeLine (Sys2Proof.Machine.commandLine nbits w) s.pos s.script }

end Sys2Proof.Machine
end

