-- ==== Sys2Proof/Safety.lean ====
section
/-! DEFINITION. The terms that statements about the machine use: which host offsets belong to what, when two states
agree, what the spec says of every reachable state, and what a run without a model fault is. -/

namespace Sys2Proof.Machine

/-! ### Host offsets by the numbers of the spec's map, apart from the model's own tables -/

/-- The offsets the host may write and whose byte is then stored: the RW registers and IN (10_state.md register map;
R38). -/
def hostWritable (cap : Nat) (a : Offset) : Prop :=
  (0x02 ≤ a.toNat ∧ a.toNat ≤ 0x04) ∨ (0x06 ≤ a.toNat ∧ a.toNat ≤ 0x09) ∨
  (0x10000 ≤ a.toNat ∧ a.toNat < 0x10000 + cap)

/-- The offsets the host may only read: the RO registers and OUT (10_state.md register map; R37). -/
def hostReadOnly (a : Offset) : Prop :=
  a.toNat = 0x01 ∨ (0x0A ≤ a.toNat ∧ a.toNat ≤ 0x0C) ∨ (0x10 ≤ a.toNat ∧ a.toNat ≤ 0x1D) ∨
  (0x1000 ≤ a.toNat ∧ a.toNat ≤ 0x107F)

/-- The PACK result set and STATUS, by offset: OUT, OUT_LEN, P_HLEN (R34), STATUS (R11). -/
def packWrites (a : Offset) : Prop :=
  a.toNat = 0x01 ∨ (0x0A ≤ a.toNat ∧ a.toNat ≤ 0x0C) ∨ (0x1000 ≤ a.toNat ∧ a.toNat ≤ 0x107F)

/-- The UNPACK result set and STATUS, by offset (R34, R11). -/
def unpackWrites (a : Offset) : Prop :=
  a.toNat = 0x01 ∨ (0x10 ≤ a.toNat ∧ a.toNat ≤ 0x1D)

/-! ### Agreement of two states -/

/-- Nothing but the block's bytes may differ: BUF_CAP, the script, the host's position and its variables agree. -/
def sameHost (s t : State) : Prop :=
  t.bufCap = s.bufCap ∧ t.script = s.script ∧ t.pos = s.pos ∧ t.vars = s.vars

/-- Every byte of the block agrees: the three arrays of R7. -/
def sameBlock (s t : State) : Prop :=
  t.regs = s.regs ∧ t.out = s.out ∧ t.inBuf = s.inBuf

/-! ### Inputs and results of the commands -/

/-- IN_LEN, H_VERSION, H_C, H_PROTOCOL and H_FLAGS are written and hold these values (R62). -/
def packInputs (s : State) (n ver c proto flags : Half) : Prop :=
  readReg .inLen s = some n ∧ readReg .hVersion s = some ver ∧ readReg .hC s = some c ∧
  readReg .hProtocol s = some proto ∧ readReg .hFlags s = some flags

/-- IN[0..n-1] are written (R62, R98). -/
def inWritten (s : State) (n : Nat) : Prop :=
  ∀ j, j < n → ∃ b, Memory.read s.inBuf j = some b

/-- IN[0..3] hold these bytes (R69). -/
def inHeader (s : State) (b0 b1 b2 b3 : Byte) : Prop :=
  Memory.read s.inBuf 0 = some b0 ∧ Memory.read s.inBuf 1 = some b1 ∧
  Memory.read s.inBuf 2 = some b2 ∧ Memory.read s.inBuf 3 = some b3

/-- STATUS holds this byte (R11). -/
def statusIs (s : State) (v : Byte) : Prop := Memory.read s.regs 0x01 = some v

/-- Every byte of the PACK result set is unwritten (R34, R88): OUT, OUT_LEN at 0x0A and 0x0B, P_HLEN at 0x0C. -/
def packPoisoned (s : State) : Prop :=
  (∀ j, j < 128 → Memory.read s.out j = none) ∧
  (∀ a, 0x0A ≤ a → a ≤ 0x0C → Memory.read s.regs a = none)

/-- The PACK result set holds the result of a PACK with this hlen (R20, R21, R62, R67): OUT_LEN and P_HLEN, hlen in
byte 0, and OUT written exactly below OUT_LEN. -/
def packHolds (s : State) (h : Nat) : Prop :=
  h ≤ 31 ∧ readReg .pHlen s = some (BitVec.ofNat 16 h) ∧
  readReg .outLen s = some (BitVec.ofNat 16 (4 + 4 * h)) ∧
  (∃ b0, Memory.read s.out 0 = some b0 ∧ (headerLenOf b0).toNat = h) ∧
  (∀ j, j < 128 → ((∃ b, Memory.read s.out j = some b) ↔ j < 4 + 4 * h))

/-- Every byte of the UNPACK result set, 0x10 to 0x1D, is unwritten (R34, R88). -/
def unpackPoisoned (s : State) : Prop :=
  ∀ a, 0x10 ≤ a → a ≤ 0x1D → Memory.read s.regs a = none

/-- The UNPACK result set holds the result of an UNPACK of `n` bytes with this hlen (R22 to R30, R72): the fields in
their ranges, U_FLAGS 0x0000, and the two views. -/
def unpackHolds (s : State) (n h : Nat) : Prop :=
  h ≤ 31 ∧ 4 + 4 * h ≤ n ∧ n ≤ s.bufCap ∧ n < 65536 ∧
  (∃ v, readReg .uVersion s = some v ∧ v.toNat ≤ 3) ∧
  (∃ v, readReg .uC s = some v ∧ v.toNat ≤ 1) ∧
  readReg .uHlen s = some (BitVec.ofNat 16 h) ∧
  (∃ v, readReg .uProtocol s = some v ∧ v.toNat ≤ 255) ∧
  readReg .uFlags s = some 0x0000#16 ∧
  readReg .uExtOff s = some 4#16 ∧
  readReg .uExtLen s = some (BitVec.ofNat 16 (4 * h)) ∧
  readReg .uPayOff s = some (BitVec.ofNat 16 (4 + 4 * h)) ∧
  readReg .uPayLen s = some (BitVec.ofNat 16 (n - (4 + 4 * h)))

/-! ### What the spec says of every reachable state -/

/-- The arrays are in canonical form, hold nothing outside the state the spec gives the block (no CMD, no reserved
byte, no index past OUT_CAP or BUF_CAP; R7, R10, R31), and BUF_CAP is in its range (R2). -/
def State.memoryLegal (s : State) : Prop :=
  (Memory.wf s.regs ∧ Memory.wf s.out ∧ Memory.wf s.inBuf ∧ Memory.wf s.vars) ∧
  (∀ c ∈ s.regs, (0x01 ≤ c.1 ∧ c.1 ≤ 0x04) ∨ (0x06 ≤ c.1 ∧ c.1 ≤ 0x0C) ∨ (0x10 ≤ c.1 ∧ c.1 ≤ 0x1D)) ∧
  (∀ c ∈ s.out, c.1 < 128) ∧ (∀ c ∈ s.inBuf, c.1 < s.bufCap) ∧
  (128 ≤ s.bufCap ∧ s.bufCap ≤ 65535)

/-- The seven values STATUS takes (R14). -/
def legalStatus : List Byte := [0x00#8, 0x11#8, 0x16#8, 0x21#8, 0x22#8, 0x24#8, 0x38#8]

/-- STATUS is written and holds one of its seven values (R11, R14); H_VERSION and H_C, where written, hold no bit
outside their fields (R15, R16). -/
def State.registersLegal (s : State) : Prop :=
  (∃ v ∈ legalStatus, statusIs s v) ∧
  (∀ v, readReg .hVersion s = some v → v.toNat ≤ 3) ∧
  (∀ v, readReg .hC s = some v → v.toNat ≤ 1)

/-- The PACK result set is one whole result or nothing (R34, R62, R88). -/
def State.packSetLegal (s : State) : Prop := packPoisoned s ∨ ∃ h, packHolds s h

/-- The UNPACK result set is one whole result or nothing (R34, R69, R88). -/
def State.unpackSetLegal (s : State) : Prop := unpackPoisoned s ∨ ∃ n h, unpackHolds s n h

/-- STATUS tells which result set can be read (R12, R13, R83, R88): after a success the command's set is a result, after
a typed failure it is poisoned, and before any command both are. -/
def State.statusTellsResults (s : State) : Prop :=
  (statusIs s 0x00#8 → packPoisoned s ∧ unpackPoisoned s) ∧
  (statusIs s 0x11#8 → ∃ h, packHolds s h) ∧
  (statusIs s 0x16#8 → packPoisoned s) ∧
  (statusIs s 0x21#8 → ∃ n h, unpackHolds s n h) ∧
  (statusIs s 0x22#8 → unpackPoisoned s) ∧
  (statusIs s 0x24#8 → unpackPoisoned s)

/-! ### Model faults -/

/-- The access or command that a model fault records (R90). -/
def Fault.origin : Fault → Origin
  | .unwrittenRead o _ => o
  | .accessFault o => o
  | .misaligned o => o
  | .lengthOutOfRange o => o

/-! ### Safe runs -/

/-- A run of `k` steps meets no model fault and no refusal (R90: a faulted state is never final). -/
def runsSafely (k : Nat) (s : State) : Prop := ∃ t, Sys2Proof.core.run k s = .next t

end Sys2Proof.Machine
end

