-- ==== Sys2Proof/Certificates/Slice0/Obligations.lean ====
section
/-! DEFINITION. The statements for the provers. Each docstring names the rules of spec/ it formalises. -/

open Sys2Proof Sys2Proof.Machine

/-! ### Encoding (30_encoding.md) -/

/-- R53, R54 on written-out bytes: 0x01, 0x02, and five bytes that encode no command, with their fields OP and RSV. -/
def Obligations.CommandBytesDecode : Prop :=
  decode [0x01#8] = .ok (.pack, []) ∧ decode [0x02#8] = .ok (.unpack, []) ∧
  decode [0x00#8] = .ok (.illegal 0x0#4 0x0#4, []) ∧ decode [0x03#8] = .ok (.illegal 0x3#4 0x0#4, []) ∧
  decode [0x11#8] = .ok (.illegal 0x1#4 0x1#4, []) ∧ decode [0x81#8] = .ok (.illegal 0x1#4 0x8#4, []) ∧
  decode [0xFF#8] = .ok (.illegal 0xF#4 0xF#4, []) ∧ decode [] = .error .noByte

/-- R53, R54: every byte is one well-formed command, PACK for 0x01 only, UNPACK for 0x02 only, ILLEGAL otherwise, and
takes exactly one byte. -/
def Obligations.EveryByteIsOneCommand : Prop :=
  ∀ (v : Byte) (rest : List Byte), ∃ i, decode (v :: rest) = .ok (i, rest) ∧ i.wellFormed = true ∧
    (i = .pack ↔ v = 0x01#8) ∧ (i = .unpack ↔ v = 0x02#8) ∧
    ((∃ op rsv, i = .illegal op rsv) ↔ v ≠ 0x01#8 ∧ v ≠ 0x02#8)

/-- R53, R54: decoding the encoding of a well-formed instruction gives it back, with all bytes after it. -/
def Obligations.DecodeOfEncodeIsTheInstruction : Prop :=
  ∀ (i : Instr) (rest : List Byte), i.wellFormed = true → decode (encode i ++ rest) = .ok (i, rest)

/-- R53, R54: no bit of a command byte is dropped: the encoding of what was decoded is the byte. -/
def Obligations.EncodeOfDecodeIsTheByte : Prop :=
  ∀ (v : Byte) (rest left : List Byte) (i : Instr), decode (v :: rest) = .ok (i, left) → encode i = [v] ∧ left = rest

/-! ### The step (20_memory.md R45, 30_encoding.md R54, R61) -/

/-- R10, R45, R54, R102: where the host's line writes one byte to CMD and the byte decodes to the well-formed
instruction i, one step is exec of i, with the host moved to its next line and nothing else around it. That the host
moves in the same step, and the command runs on the moved state, is the model's choice (log 14); that the low byte of a
wider value counts is the model's reading (log 7). -/
def Obligations.StepRunsTheDecodedCommand : Prop :=
  ∀ (s : State) (line : HostLine) (d : HostData) (i : Instr),
    currentLine s = some line → line.op = .write 0 1 d → decode [lowByte (hostData d s)] = .ok (i, []) →
    i.wellFormed = true → step s = exec i (advance s)

/-- The model's own (log 4): a command placed by withFetchWord is what the very next step performs, the host moved to its
next line in that step (log 14). -/
def Obligations.PlacedCommandIsPerformedNext : Prop :=
  ∀ (s : State) (w : Nat),
    step (s.withFetchWord 8 w) = exec (decodeByte (BitVec.ofNat 8 w)) (advance (s.withFetchWord 8 w)) ∧
    sameBlock s (s.withFetchWord 8 w)

/-- R61: BNE, JMP and HALT move the host alone. What position a label names is the model's choice (log 10), and so is
that a step at HALT, where R61 ends the run, changes nothing (log 5), and the width and first value of a host variable
(log 6). -/
def Obligations.HostBranchesMoveOnlyTheHost : Prop :=
  ∀ (s : State) (line : HostLine), currentLine s = some line →
    (∀ t v l, line.op = .bne t v l →
      (hostVar t s = v → step s = .next { s with pos := s.pos + 1 }) ∧
      (∀ p, hostVar t s ≠ v → labelPos l s.script = some p → step s = .next { s with pos := p })) ∧
    (∀ l p, line.op = .jmp l → labelPos l s.script = some p → step s = .next { s with pos := p }) ∧
    (line.op = .halt → step s = .next s)

/-- R61, with the model's refusal of an undefined label (log 10): a well-formed script, one whose jumps all name a label
that some line bears and in which no label stands on two lines, is never refused, and no command ever is. -/
def Obligations.NothingWellFormedIsRefused : Prop :=
  ∀ (s : State) (r : Refusal),
    (scriptWellFormed s.script = true → step s ≠ .refused r) ∧ (∀ i, exec i s ≠ .refused r)

/-- R90: a model fault of a step records what raised it: the current line's access with its kind, offset and width, or
the command that the line's byte for CMD decodes to. (The low byte of a wider value: log 7.) -/
def Obligations.FaultRecordsWhatRaisedIt : Prop :=
  ∀ (s : State) (f : Fault), step s = .fault f → ∃ line, currentLine s = some line ∧
    ((∃ a w x, line.op = .read a w x ∧ f.origin = .access .read a w) ∨
     (∃ a w d, line.op = .write a w d ∧ ¬ (w = 1 ∧ a = 0) ∧ f.origin = .access .write a w) ∨
     (∃ d, line.op = .write 0 1 d ∧ f.origin = .command (decodeByte (lowByte (hostData d s)))))

/-! ### Host accesses (20_memory.md, 10_state.md R10, R31) -/

/-- R36, R37, R38: which byte of the three arrays each host offset is. -/
def Obligations.OffsetsMapToTheThreeArrays : Prop :=
  ∀ (s : State) (a : Offset),
    (a.toNat ≤ 0x3F → peek s a = Memory.read s.regs a.toNat) ∧
    (0x1000 ≤ a.toNat → a.toNat ≤ 0x107F → peek s a = Memory.read s.out (a.toNat - 0x1000)) ∧
    (0x10000 ≤ a.toNat → a.toNat < 0x10000 + s.bufCap → peek s a = Memory.read s.inBuf (a.toNat - 0x10000))

/-- R43, R90: a host read of one byte, by the access right of the byte. The operand that UnwrittenRead names beside the
access is the model's reading (log 9). -/
def Obligations.HostReadsAByteByItsRight : Prop :=
  ∀ (s : State) (a : Offset),
    (hostWritable s.bufCap a ∨ hostReadOnly a →
      (∀ v, peek s a = some v → memRead a 1 s = .ok (v.setWidth 16)) ∧
      (peek s a = none → memRead a 1 s = .error (.unwrittenRead (.access .read a 1) (.hostByte a)))) ∧
    (¬ (hostWritable s.bufCap a ∨ hostReadOnly a) → memRead a 1 s = .error (.accessFault (.access .read a 1)))

/-- R42: a host write of one byte, by the access right of the byte: what is stored, that no other byte changes, and
that CMD performs the command and stores nothing. R42 speaks of a byte; that a 1-byte write of a wider value writes its low
byte is the model's reading (log 7). -/
def Obligations.HostWritesAByteByItsRight : Prop :=
  ∀ (s : State) (a : Offset) (v : Half),
    (hostWritable s.bufCap a → ∃ t, memWrite a 1 v s = .next t ∧
      peek t a = some (if a.toNat = 0x02 then (v.extractLsb' 0 2).setWidth 8
        else if a.toNat = 0x03 then (v.extractLsb' 0 1).setWidth 8 else v.extractLsb' 0 8) ∧
      (∀ b, b ≠ a → peek t b = peek s b) ∧ sameHost s t) ∧
    (a.toNat = 0 → memWrite a 1 v s = exec (decodeByte (v.extractLsb' 0 8)) s ∧
      (∀ t, memWrite a 1 v s = .next t → peek t a = peek s a)) ∧
    (a.toNat ≠ 0 → ¬ hostWritable s.bufCap a → memWrite a 1 v s = .fault (.accessFault (.access .write a 1)))

/-- R40: the widths, the alignment rule, a 1-byte access to any single byte, and a 2-byte access as two 1-byte accesses
done as one, or not at all. That an odd offset is Misaligned even where it is reserved or unmapped, for which R31 and R39
have AccessFault, is the model's choice (log 8); that a 1-byte write of a value wider than a byte writes its low byte is its
reading (log 7), and so is that a fault carries no state (log 9). -/
def Obligations.WideAccessIsTwoByteAccesses : Prop :=
  ∀ (s : State) (a : Offset) (v : Half),
    (∀ w, w ≠ 1 → w ≠ 2 → memRead a w s = .error (.accessFault (.access .read a w)) ∧
      memWrite a w v s = .fault (.accessFault (.access .write a w))) ∧
    (a.toNat % 2 = 1 → memRead a 2 s = .error (.misaligned (.access .read a 2)) ∧
      memWrite a 2 v s = .fault (.misaligned (.access .write a 2))) ∧
    (hostWritable s.bufCap a → ∃ t, memWrite a 1 v s = .next t) ∧
    (∀ b, hostWritable s.bufCap a ∨ hostReadOnly a → peek s a = some b → memRead a 1 s = .ok (b.setWidth 16)) ∧
    (a.toNat % 2 = 0 →
      (∀ lo hi : Byte, memRead a 1 s = .ok (lo.setWidth 16) → memRead (a + 1) 1 s = .ok (hi.setWidth 16) →
        memRead a 2 s = .ok (hi ++ lo)) ∧
      ((∃ f, memRead a 1 s = .error f) ∨ (∃ f, memRead (a + 1) 1 s = .error f) → ∃ f, memRead a 2 s = .error f) ∧
      (∀ t u, hostWritable s.bufCap a → hostWritable s.bufCap (a + 1) → memWrite a 1 v s = .next t →
        memWrite (a + 1) 1 (v >>> 8) t = .next u → memWrite a 2 v s = .next u) ∧
      (¬ (hostWritable s.bufCap a ∧ hostWritable s.bufCap (a + 1)) → ∃ f, memWrite a 2 v s = .fault f))

/-- R41: the host interface is little-endian, for writes, reads and the value of every 16-bit register, and the wire order
of the flags is the other one. (The pair H_VERSION, H_C stores only its field bits: R15, R16.) -/
def Obligations.HostInterfaceIsLittleEndian : Prop :=
  (∀ (s t : State) (a : Offset) (v : Half), memWrite a 2 v s = .next t →
    (a.toNat ≠ 0x02 → peek t a = some (v.extractLsb' 0 8) ∧ peek t (a + 1) = some (v.extractLsb' 8 8) ∧
      memRead a 2 t = .ok v) ∧
    (a.toNat = 0x02 → peek t a = some ((v.extractLsb' 0 2).setWidth 8) ∧
      peek t (a + 1) = some ((v.extractLsb' 8 1).setWidth 8))) ∧
  (∀ (s : State) (a : Offset) (v : Half), memRead a 2 s = .ok v →
    ∃ lo hi : Byte, peek s a = some lo ∧ peek s (a + 1) = some hi ∧ v = hi ++ lo) ∧
  (∀ (s : State) (r : Reg) (v : Half), r.row.size = 2 →
    (readReg r s = some v ↔ ∃ lo hi : Byte, Memory.read s.regs r.row.offset = some lo ∧
      Memory.read s.regs (r.row.offset + 1) = some hi ∧ v = hi ++ lo)) ∧
  (∀ f : Half, flagsToWire f = (f.extractLsb' 8 8, f.extractLsb' 0 8))

/-- R10: CMD performs the command its byte encodes; a read of it and every 16-bit access that covers it fault.
R10 speaks of a byte; that the low byte of a wider value is decoded is the model's reading (log 7). -/
def Obligations.CmdIsWriteOnly : Prop :=
  ∀ (s : State) (v : Half),
    memWrite 0 1 v s = exec (decodeByte (lowByte v)) s ∧
    (∀ t, memWrite 0 1 v s = .next t → peek t 0 = peek s 0) ∧
    memRead 0 1 s = .error (.accessFault (.access .read 0 1)) ∧
    memRead 0 2 s = .error (.accessFault (.access .read 0 2)) ∧
    memWrite 0 2 v s = .fault (.accessFault (.access .write 0 2))

/-- R54: what a host write of each byte to CMD performs. That the low byte of a wider value is decoded is the model's
reading (log 7). -/
def Obligations.WriteToCmdPerformsTheCommand : Prop :=
  ∀ (s : State) (v : Half),
    (lowByte v = 0x01#8 → memWrite 0 1 v s = exec .pack s) ∧
    (lowByte v = 0x02#8 → memWrite 0 1 v s = exec .unpack s) ∧
    (lowByte v ≠ 0x01#8 → lowByte v ≠ 0x02#8 →
      ∃ t, memWrite 0 1 v s = .next t ∧ statusIs t 0x38#8 ∧ ∀ a : Offset, a.toNat ≠ 0x01 → peek t a = peek s a)

/-- R31: a host read or write of a reserved offset faults, of a value wider than a byte too (log 7), and no command changes
what is there. -/
def Obligations.ReservedOffsetsFault : Prop :=
  ∀ (s : State) (a : Offset) (v : Half),
    a.toNat = 0x05 ∨ (0x0D ≤ a.toNat ∧ a.toNat ≤ 0x0F) ∨ (0x1E ≤ a.toNat ∧ a.toNat ≤ 0x3F) →
    memRead a 1 s = .error (.accessFault (.access .read a 1)) ∧
    memWrite a 1 v s = .fault (.accessFault (.access .write a 1)) ∧
    (∀ i t, exec i s = .next t → peek t a = peek s a)

/-- R43, R46, R61: a host line that reads puts the value in its variable, and changes no byte of the block. That the host
moves in the same step is the model's choice (log 14), and so is the width of a host variable (log 6). -/
def Obligations.HostReadChangesNoByte : Prop :=
  ∀ (s : State) (line : HostLine) (a : Offset) (w : Nat) (x : HostVar),
    currentLine s = some line → line.op = .read a w x →
    (∀ v, memRead a w s = .ok v → ∃ t, step s = .next t ∧ sameBlock s t ∧ t.bufCap = s.bufCap ∧
      t.script = s.script ∧ t.pos = s.pos + 1 ∧ hostVar x t = v ∧ ∀ y, y ≠ x → hostVar y t = hostVar y s) ∧
    (∀ f, memRead a w s = .error f → step s = .fault f)

/-- R47: a read right after a write of the same byte gives the byte as stored (R15, R16 for the two field registers).
That the low byte of a value wider than a byte is the one written is the model's reading (log 7). -/
def Obligations.ReadAfterWriteGivesTheStoredByte : Prop :=
  ∀ (s t : State) (a : Offset) (v : Half), hostWritable s.bufCap a → memWrite a 1 v s = .next t →
    memRead a 1 t = .ok (if a.toNat = 0x02 then (v.extractLsb' 0 2).setWidth 16
      else if a.toNat = 0x03 then (v.extractLsb' 0 1).setWidth 16 else (v.extractLsb' 0 8).setWidth 16)

/-- R42, R47: in one step the bytes the host may write (H_VERSION, H_C, H_PROTOCOL, H_FLAGS, IN_LEN, IN) change only by a
host write that covers them, or by reset. No command changes them: R38 for IN; R68, R75 and R87 for all (R98, which the
spec marks as derived, says it of the registers). That reset is a line is the model's choice (log 11). -/
def Obligations.InputsChangeOnlyByHostWrites : Prop :=
  ∀ (s t : State) (a : Offset), hostWritable s.bufCap a → step s = .next t → peek t a ≠ peek s a →
    ∃ line, currentLine s = some line ∧
      (line.op = .resetEvent ∨ ∃ b w d, line.op = .write b w d ∧ b.toNat ≠ 0 ∧ (a = b ∨ (w = 2 ∧ a = b + 1)))

/-- R11, R20 to R30, R37: in one step STATUS, the result registers and OUT change only by a command or by reset.
That reset is a line is the model's choice (log 11). -/
def Obligations.ResultsChangeOnlyByCommands : Prop :=
  ∀ (s t : State) (a : Offset), hostReadOnly a → step s = .next t → peek t a ≠ peek s a →
    ∃ line, currentLine s = some line ∧ (line.op = .resetEvent ∨ ∃ d, line.op = .write 0 1 d)

/-- R34, R101: in one step a byte of the UNPACK result set, the views among them, changes only by an UNPACK or by reset,
and a byte of the PACK result set only by a PACK or by reset: each set keeps its values across everything else.
That reset is a line is the model's choice (log 11); that the low byte of a wider value is the one written is its reading
(log 7). -/
def Obligations.ResultSetsChangeOnlyByTheirOwnCommand : Prop :=
  ∀ (s t : State) (a : Offset), step s = .next t → peek t a ≠ peek s a → a.toNat ≠ 0x01 →
    (unpackWrites a → ∃ line, currentLine s = some line ∧
      (line.op = .resetEvent ∨ ∃ d, line.op = .write 0 1 d ∧ lowByte (hostData d s) = 0x02#8)) ∧
    (packWrites a → ∃ line, currentLine s = some line ∧
      (line.op = .resetEvent ∨ ∃ d, line.op = .write 0 1 d ∧ lowByte (hostData d s) = 0x01#8))

/-- R46: a host write repeated leaves the same state, but for a write to CMD, which performs a command each time.
The canonical form is the model's (log 2), and so is the reading of a 1-byte write of a wider value (log 7). -/
def Obligations.RepeatedWriteLeavesTheSameState : Prop :=
  ∀ (s t : State) (a : Offset) (w : Nat) (v : Half), Memory.wf s.regs → Memory.wf s.inBuf → ¬ (w = 1 ∧ a = 0) →
    memWrite a w v s = .next t → memWrite a w v t = .next t

/-! ### PACK (40_pack.md) -/

/-- R62, R20, R21, R64, R65, R67: the whole result of a PACK whose operands are written, whose length fits BUF_CAP and
is at most 124. -/
def Obligations.PackBuildsTheWireBytes : Prop :=
  ∀ (s : State) (n ver c proto flags : Half), packInputs s n ver c proto flags →
    n.toNat ≤ s.bufCap → n.toNat ≤ 124 → inWritten s n.toNat →
    ∃ t, exec .pack s = .next t ∧ statusIs t 0x11#8 ∧
      readReg .outLen t = some (BitVec.ofNat 16 (4 + 4 * ((n.toNat + 3) / 4))) ∧
      readReg .pHlen t = some (BitVec.ofNat 16 ((n.toNat + 3) / 4)) ∧
      Memory.read t.out 0 = some
        ((ver.extractLsb' 0 2 ++ c.extractLsb' 0 1) ++ BitVec.ofNat 5 ((n.toNat + 3) / 4)) ∧
      Memory.read t.out 1 = some (proto.extractLsb' 0 8) ∧
      Memory.read t.out 2 = some (flags.extractLsb' 8 8) ∧
      Memory.read t.out 3 = some (flags.extractLsb' 0 8) ∧
      (∀ i, i < n.toNat → Memory.read t.out (4 + i) = Memory.read s.inBuf i) ∧
      (∀ i, n.toNat ≤ i → i < 4 * ((n.toNat + 3) / 4) → Memory.read t.out (4 + i) = some 0x00#8) ∧
      (∀ j, 4 + 4 * ((n.toNat + 3) / 4) ≤ j → Memory.read t.out j = none)

/-- R86: ExtensionTooLarge is PACK's alone, exactly when IN_LEN > 124; STATUS is 0x16 and the PACK result set is
poisoned, with no byte of IN read (the hypotheses ask for none). -/
def Obligations.PackFailsOnTooLargeAnExtension : Prop :=
  (∀ (s : State) (n ver c proto flags : Half), packInputs s n ver c proto flags →
    n.toNat ≤ s.bufCap → (n.toNat + 3) / 4 > 31 →
    ∃ t, exec .pack s = .next t ∧ statusIs t 0x16#8 ∧ packPoisoned t) ∧
  (∀ (s t : State) (n : Half), exec .pack s = .next t → readReg .inLen s = some n →
    (statusIs t 0x16#8 ↔ 124 < n.toNat) ∧ ((n.toNat + 3) / 4 > 31 ↔ 124 < n.toNat)) ∧
  (∀ (s t : State) (i : Instr), i ≠ .pack → exec i s = .next t → ¬ statusIs t 0x16#8)

/-- R66: no flags value, nor any version, C or protocol, makes a PACK fail: only the length does. -/
def Obligations.PackFailsOnNothingButLength : Prop :=
  ∀ (s t : State) (n : Half), exec .pack s = .next t → readReg .inLen s = some n →
    (statusIs t 0x11#8 ∧ n.toNat ≤ 124) ∨ (statusIs t 0x16#8 ∧ 124 < n.toNat)

/-- R68, the frame of PACK: nothing changes but OUT, OUT_LEN, P_HLEN and STATUS; and a PACK of any state with the same
inputs, what the first left among them, gives the same outputs. -/
def Obligations.PackChangesOnlyItsResults : Prop :=
  ∀ (s t : State), exec .pack s = .next t →
    (∀ a : Offset, ¬ packWrites a → peek t a = peek s a) ∧ t.inBuf = s.inBuf ∧ sameHost s t ∧
    (∀ v : State, v.bufCap = s.bufCap → (∀ a : Offset, hostWritable s.bufCap a → peek v a = peek s a) →
      ∃ u, exec .pack v = .next u ∧ ∀ a : Offset, packWrites a → peek u a = peek t a)

/-- R62, and R98 (which the spec marks as derived from R62 and R68): a PACK answers a next state exactly when its registers are written, IN_LEN fits BUF_CAP and, if IN_LEN is
at most 124, so many bytes of IN are written. -/
def Obligations.PackAnswersExactlyWhenPrepared : Prop :=
  ∀ (s : State), (∃ t, exec .pack s = .next t) ↔
    ∃ n ver c proto flags, packInputs s n ver c proto flags ∧ n.toNat ≤ s.bufCap ∧
      (n.toNat ≤ 124 → inWritten s n.toNat)

/-- R62, and R89 (which the spec marks as derived from R62): the model faults of PACK, each in its place in the order.
The operand that UnwrittenRead names beside the command is the model's reading (log 9). -/
def Obligations.PackFaultsInOrder : Prop :=
  ∀ (s : State),
    (readReg .inLen s = none → exec .pack s = .fault (.unwrittenRead (.command .pack) (.reg .inLen))) ∧
    (∀ n, readReg .inLen s = some n →
      (s.bufCap < n.toNat → exec .pack s = .fault (.lengthOutOfRange (.command .pack))) ∧
      (n.toNat ≤ s.bufCap →
        (readReg .hVersion s = none →
          exec .pack s = .fault (.unwrittenRead (.command .pack) (.reg .hVersion))) ∧
        (∀ ver, readReg .hVersion s = some ver →
          (readReg .hC s = none → exec .pack s = .fault (.unwrittenRead (.command .pack) (.reg .hC))) ∧
          (∀ c, readReg .hC s = some c →
            (readReg .hProtocol s = none →
              exec .pack s = .fault (.unwrittenRead (.command .pack) (.reg .hProtocol))) ∧
            (∀ p, readReg .hProtocol s = some p →
              (readReg .hFlags s = none →
                exec .pack s = .fault (.unwrittenRead (.command .pack) (.reg .hFlags))) ∧
              (∀ f m, readReg .hFlags s = some f → n.toNat ≤ 124 → m < n.toNat → inWritten s m →
                Memory.read s.inBuf m = none →
                exec .pack s = .fault (.unwrittenRead (.command .pack) (.inByte m))))))))

/-! ### The header and the flags converter (30_encoding.md R55, 40_pack.md R63, 42_flags_converter.md) -/

/-- R55, R64: byte 0 as the source's shifts and masks, both ways, and as PACK composes it. -/
def Obligations.HeaderByteZeroIsItsThreeFields : Prop :=
  (∀ (ver : BitVec 2) (c : BitVec 1) (hlen : BitVec 5),
    headerByte0 ver c hlen =
      (ver.setWidth 8 <<< 6) ||| (if c = 1#1 then 0x20#8 else 0x00#8) ||| (hlen.setWidth 8 &&& 0x1F#8)) ∧
  (∀ b : Byte, (versionOf b).setWidth 8 = b >>> 6 ∧ (controlOf b = 1#1 ↔ b &&& 0x20#8 ≠ 0) ∧
    (headerLenOf b).setWidth 8 = b &&& 0x1F#8) ∧
  (∀ (s t : State) (n ver c : Half), exec .pack s = .next t → statusIs t 0x11#8 → readReg .inLen s = some n →
    readReg .hVersion s = some ver → readReg .hC s = some c →
    Memory.read t.out 0 = some (((ver.extractLsb' 0 2).setWidth 8 <<< 6) |||
      (if c.extractLsb' 0 1 = 1#1 then 0x20#8 else 0x00#8) ||| (BitVec.ofNat 8 ((n.toNat + 3) / 4) &&& 0x1F#8)))

/-- R63 (which the spec marks as derived from R62): hlen is the exact ceiling of n / 4, and the cut to 5 bits changes no
value that passed the check with 31. -/
def Obligations.HlenIsTheExactCeiling : Prop :=
  ∀ n : Nat, n ≤ 4 * hlenOf n ∧ 4 * hlenOf n < n + 4 ∧
    (hlenOf n ≤ 31 → (BitVec.ofNat 5 (hlenOf n)).toNat = hlenOf n)

/-- R80 (which the spec marks as derived from R78 and R79): the converter's two operations undo each other, and the flags value is 0 exactly when both bytes are. -/
def Obligations.FlagsConverterIsABijection : Prop :=
  (∀ f : Half, flagsFromWire (flagsToWire f).1 (flagsToWire f).2 = f) ∧
  (∀ a b : Byte, flagsToWire (flagsFromWire a b) = (a, b)) ∧
  (∀ a b : Byte, flagsFromWire a b = 0 ↔ a = 0 ∧ b = 0)

/-- R81 (which the spec marks as derived from R78, R79 and R41): byte by byte, PACK and UNPACK swap the two flags bytes between register order and wire order; and a host that
writes and reads the registers as 16-bit values sees the number unchanged. -/
def Obligations.ConverterSwapsTheFlagsBytes : Prop :=
  (∀ s t : State, exec .pack s = .next t → statusIs t 0x11#8 →
    Memory.read t.out 2 = Memory.read s.regs 0x07 ∧ Memory.read t.out 3 = Memory.read s.regs 0x06) ∧
  (∀ s t : State, exec .unpack s = .next t → statusIs t 0x21#8 →
    Memory.read t.regs 0x15 = Memory.read s.inBuf 2 ∧ Memory.read t.regs 0x14 = Memory.read s.inBuf 3) ∧
  (∀ (s : State) (f : Half), ∃ t, memWrite 0x06 2 f s = .next t ∧ readReg .hFlags t = some f ∧
    Memory.read t.regs 0x06 = some (f.extractLsb' 0 8) ∧ Memory.read t.regs 0x07 = some (f.extractLsb' 8 8)) ∧
  (∀ (s : State) (f : Half), readReg .uFlags s = some f → memRead 0x14 2 s = .ok f)

/-! ### UNPACK (41_unpack.md) -/

/-- R69, R22 to R30, R72: the whole result of an UNPACK of a header with zero flags that is all there, the views into an
IN that stays as it was. -/
def Obligations.UnpackReportsFieldsAndViews : Prop :=
  ∀ (s : State) (n : Half) (b0 b1 : Byte), readReg .inLen s = some n → n.toNat ≤ s.bufCap →
    inHeader s b0 b1 0x00#8 0x00#8 → 4 + 4 * (b0.extractLsb' 0 5).toNat ≤ n.toNat →
    ∃ t, exec .unpack s = .next t ∧ statusIs t 0x21#8 ∧
      readReg .uVersion t = some ((b0.extractLsb' 6 2).setWidth 16) ∧
      readReg .uC t = some ((b0.extractLsb' 5 1).setWidth 16) ∧
      readReg .uHlen t = some ((b0.extractLsb' 0 5).setWidth 16) ∧
      readReg .uProtocol t = some (b1.setWidth 16) ∧
      readReg .uFlags t = some 0x0000#16 ∧
      readReg .uExtOff t = some 4#16 ∧
      readReg .uExtLen t = some (BitVec.ofNat 16 (4 * (b0.extractLsb' 0 5).toNat)) ∧
      readReg .uPayOff t = some (BitVec.ofNat 16 (4 + 4 * (b0.extractLsb' 0 5).toNat)) ∧
      readReg .uPayLen t = some (BitVec.ofNat 16 (n.toNat - (4 + 4 * (b0.extractLsb' 0 5).toNat))) ∧
      t.inBuf = s.inBuf

/-- R70, R84, R85: the conditions of the failures in their order, each with its STATUS, the poisoned result set, and IN
as it was. (R77, which the spec marks as derived from R69 and R70, says the same.) -/
def Obligations.UnpackFailuresByCondition : Prop :=
  ∀ (s : State) (n : Half), readReg .inLen s = some n → n.toNat ≤ s.bufCap →
    (n.toNat < 4 → ∃ t, exec .unpack s = .next t ∧ statusIs t 0x22#8 ∧ unpackPoisoned t ∧ t.inBuf = s.inBuf) ∧
    (∀ b0 b1 b2 b3, 4 ≤ n.toNat → inHeader s b0 b1 b2 b3 → b2 ≠ 0 ∨ b3 ≠ 0 →
      ∃ t, exec .unpack s = .next t ∧ statusIs t 0x24#8 ∧ unpackPoisoned t ∧ t.inBuf = s.inBuf) ∧
    (∀ b0 b1, 4 ≤ n.toNat → inHeader s b0 b1 0x00#8 0x00#8 → n.toNat < 4 + 4 * (b0 &&& 0x1F#8).toNat →
      ∃ t, exec .unpack s = .next t ∧ statusIs t 0x22#8 ∧ unpackPoisoned t ∧ t.inBuf = s.inBuf)

/-- R75, the frame of UNPACK: nothing changes but the UNPACK result set and STATUS. -/
def Obligations.UnpackChangesOnlyItsResults : Prop :=
  ∀ (s t : State), exec .unpack s = .next t →
    (∀ a : Offset, ¬ unpackWrites a → peek t a = peek s a) ∧ t.inBuf = s.inBuf ∧ t.out = s.out ∧ sameHost s t

/-- R71: UNPACK reads at most IN[0..3], and these only when IN_LEN ≥ 4: with any other contents of IN that agree there
it answers the same. -/
def Obligations.UnpackReadsAtMostFourBytes : Prop :=
  ∀ (s : State) (m : List Host.Cell),
    (∀ n, readReg .inLen s = some n → 4 ≤ n.toNat → ∀ j, j < 4 → Memory.read m j = Memory.read s.inBuf j) →
    (∀ t, exec .unpack s = .next t → exec .unpack { s with inBuf := m } = .next { t with inBuf := m }) ∧
    (∀ f, exec .unpack s = .fault f → exec .unpack { s with inBuf := m } = .fault f)

/-- R69, and R99 (which the spec marks as derived from R69 and R71): an UNPACK answers a next state exactly when IN_LEN is written and fits BUF_CAP and, if IN_LEN is at least
4, the first four bytes of IN are written. -/
def Obligations.UnpackAnswersExactlyWhenPrepared : Prop :=
  ∀ (s : State), (∃ t, exec .unpack s = .next t) ↔
    ∃ n, readReg .inLen s = some n ∧ n.toNat ≤ s.bufCap ∧ (4 ≤ n.toNat → inWritten s 4)

/-- R69, and R89 (which the spec marks as derived from R69 and R70): the model faults of UNPACK, each in its place in the order.
The operand that UnwrittenRead names beside the command is the model's reading (log 9). -/
def Obligations.UnpackFaultsInOrder : Prop :=
  ∀ (s : State),
    (readReg .inLen s = none → exec .unpack s = .fault (.unwrittenRead (.command .unpack) (.reg .inLen))) ∧
    (∀ n, readReg .inLen s = some n →
      (s.bufCap < n.toNat → exec .unpack s = .fault (.lengthOutOfRange (.command .unpack))) ∧
      (∀ m, n.toNat ≤ s.bufCap → 4 ≤ n.toNat → m < 4 → inWritten s m → Memory.read s.inBuf m = none →
        exec .unpack s = .fault (.unwrittenRead (.command .unpack) (.inByte m))))

/-- R73, R60: UNPACK validates neither version nor C. Changing bits 7:5 of header byte 0 changes nothing in the
outcome but U_VERSION and U_C, which report the new bits on success. -/
def Obligations.UnpackCarriesVersionAndControl : Prop :=
  ∀ (s t : State) (b b' : Byte), Memory.read s.inBuf 0 = some b → b'.extractLsb' 0 5 = b.extractLsb' 0 5 →
    exec .unpack s = .next t →
    ∃ u, exec .unpack { s with inBuf := Memory.write 0 b' s.inBuf } = .next u ∧ u.out = t.out ∧
      (∀ a, a ≠ 0x10 → a ≠ 0x11 → Memory.read u.regs a = Memory.read t.regs a) ∧
      (statusIs t 0x21#8 → readReg .uVersion u = some ((b'.extractLsb' 6 2).setWidth 16) ∧
        readReg .uC u = some ((b'.extractLsb' 5 1).setWidth 16))

/-! ### ILLEGAL, and all commands (60_exceptions.md) -/

/-- R87: IllegalCommand, for every byte that encodes no command: STATUS 0x38, and nothing else changes. -/
def Obligations.IllegalCommandWritesOnlyStatus : Prop :=
  ∀ (s : State) (op rsv : BitVec 4), ∃ t, exec (.illegal op rsv) s = .next t ∧ statusIs t 0x38#8 ∧
    (∀ a : Offset, a.toNat ≠ 0x01 → peek t a = peek s a) ∧ t.out = s.out ∧ t.inBuf = s.inBuf ∧ sameHost s t

/-- R11, R12, R13, R83: every command that answers writes the whole STATUS: bits 7:6 zero, LAST its own code, OK = 1
exactly when ERR = 0, and ERR one of its own failures. -/
def Obligations.CommandRecordsItsOutcomeInStatus : Prop :=
  ∀ (s t : State) (i : Instr), exec i s = .next t → ∃ v, statusIs t v ∧ v.extractLsb' 6 2 = 0#2 ∧
    (v.extractLsb' 0 1 = 1#1 ↔ v.extractLsb' 1 3 = 0#3) ∧
    (i = .pack → v.extractLsb' 4 2 = 1#2 ∧ (v.extractLsb' 1 3 = 0#3 ∨ v.extractLsb' 1 3 = 3#3)) ∧
    (i = .unpack → v.extractLsb' 4 2 = 2#2 ∧
      (v.extractLsb' 1 3 = 0#3 ∨ v.extractLsb' 1 3 = 1#3 ∨ v.extractLsb' 1 3 = 2#3)) ∧
    ((∃ op rsv, i = .illegal op rsv) → v.extractLsb' 4 2 = 3#2 ∧ v.extractLsb' 1 3 = 4#3)

/-- R88: a typed failure poisons the failing command's whole result set, and leaves the other set, the host-written
registers and IN as they were. -/
def Obligations.TypedFailurePoisonsItsOwnSet : Prop :=
  ∀ (s t : State),
    (exec .pack s = .next t → ¬ statusIs t 0x11#8 →
      packPoisoned t ∧ t.inBuf = s.inBuf ∧ ∀ a : Offset, ¬ packWrites a → peek t a = peek s a) ∧
    (exec .unpack s = .next t → ¬ statusIs t 0x21#8 →
      unpackPoisoned t ∧ t.inBuf = s.inBuf ∧ ∀ a : Offset, ¬ unpackWrites a → peek t a = peek s a)

/-- R33, R62, R68, R69, R75, R87, R88: performing any command a second time, on what the first left, answers the same
state again: its inputs are unchanged and its outputs are a function of them, or its failure's poison and STATUS. -/
def Obligations.CommandRepeatedChangesNothing : Prop :=
  ∀ (s t : State) (i : Instr), Memory.wf s.regs → exec i s = .next t → exec i t = .next t

/-- R33: the outcome of a command is a function of REGS, IN and the command byte (and BUF_CAP): OUT, the host's script,
position and variables do not enter it. -/
def Obligations.OutcomeDependsOnRegsAndInAlone : Prop :=
  ∀ (s u : State) (i : Instr), u.regs = s.regs → u.inBuf = s.inBuf → u.bufCap = s.bufCap →
    (∀ f, exec i s = .fault f → exec i u = .fault f) ∧
    (∀ t, exec i s = .next t → ∃ w, exec i u = .next w ∧ w.regs = t.regs ∧ w.inBuf = t.inBuf ∧
      (i = .pack → w.out = t.out))

/-- R91: a command never blocks or changes a later one: whatever command i was performed before, with whatever outcome,
command j answers as it would have without it, with the same results. -/
def Obligations.EarlierCommandDoesNotAffectALaterOne : Prop :=
  ∀ (s u : State) (i j : Instr), exec i s = .next u →
    (∀ f, exec j s = .fault f → exec j u = .fault f) ∧
    (∀ t, exec j s = .next t → ∃ w, exec j u = .next w ∧
      (j = .pack → ∀ a : Offset, packWrites a → peek w a = peek t a) ∧
      (j = .unpack → ∀ a : Offset, unpackWrites a → peek w a = peek t a) ∧
      (Memory.read w.regs 0x01 = Memory.read t.regs 0x01))

/-! ### Reset and the invariants (70_reset_and_hazards.md, 10_state.md) -/

/-- R96: after reset STATUS is 0x00 and every other byte is unwritten. -/
def Obligations.ResetUnwritesAllButStatus : Prop :=
  ∀ a : Offset, peek State.reset a = if a.toNat = 0x01 then some 0x00#8 else none

/-- R96, for the RESET event that the model lets arrive as a line of the host (log 11): in any state it leaves STATUS 0x00
and every other byte unwritten, and the host at its next line, moved in the same step (log 14). -/
def Obligations.ResetEventUnwritesAllButStatus : Prop :=
  ∀ (s : State) (line : HostLine), currentLine s = some line → line.op = .resetEvent →
    ∃ t, step s = .next t ∧ sameHost (advance s) t ∧
      ∀ a : Offset, peek t a = if a.toNat = 0x01 then some 0x00#8 else none

/-- The state after reset meets every invariant stated below. -/
def Obligations.ResetMeetsEveryInvariant : Prop :=
  State.reset.memoryLegal ∧ State.reset.registersLegal ∧ State.reset.packSetLegal ∧
  State.reset.unpackSetLegal ∧ State.reset.statusTellsResults

/-- R2, R7, R10, R31: every step keeps the canonical form (the model's: log 2), and keeps CMD, reserved offsets and everything past the
capacities out of the state. -/
def Obligations.StepKeepsMemoryLegal : Prop :=
  ∀ s t : State, s.memoryLegal → step s = .next t → t.memoryLegal

/-- R11, R15, R16, and R14 (which the spec marks as derived): every step keeps STATUS at one of its seven values and the field registers in their fields. -/
def Obligations.StepKeepsRegistersLegal : Prop :=
  ∀ s t : State, s.registersLegal → step s = .next t → t.registersLegal

/-- R34, R62, R67, R88: every step keeps the PACK result set one whole result or nothing. -/
def Obligations.StepKeepsPackSetLegal : Prop :=
  ∀ s t : State, s.packSetLegal → step s = .next t → t.packSetLegal

/-- R26, R34, R69, R72, R88: every step keeps the UNPACK result set one whole result or nothing, with U_FLAGS zero. -/
def Obligations.StepKeepsUnpackSetLegal : Prop :=
  ∀ s t : State, s.unpackSetLegal → step s = .next t → t.unpackSetLegal

/-- R12, R13, R83, R88: every step keeps STATUS telling truly which result set can be read. -/
def Obligations.StepKeepsStatusTellsResults : Prop :=
  ∀ s t : State, s.statusTellsResults → step s = .next t → t.statusTellsResults

/-- R76 (which the spec marks as derived from R62, R69 and R72): the round trip. From a state ready for PACK with IN_LEN at most 124, PACK; then any state u in which the host
has copied OUT to IN, appended m payload bytes and set IN_LEN to OUT_LEN + m within BUF_CAP; then UNPACK. The fields
come back, the extension view holds the extension and its zero padding, the payload view the payload; with nonzero
flags UNPACK ends with UnsupportedFlags. -/
def Obligations.PackThenUnpackGivesTheHeaderBack : Prop :=
  ∀ (s t u : State) (n ver c proto flags : Half) (payload : List Byte) (len : Half),
    packInputs s n ver c proto flags → n.toNat ≤ s.bufCap → n.toNat ≤ 124 → inWritten s n.toNat →
    exec .pack s = .next t →
    (∀ j, j < 4 + 4 * ((n.toNat + 3) / 4) → Memory.read u.inBuf j = Memory.read t.out j) →
    (∀ j, j < payload.length → Memory.read u.inBuf (4 + 4 * ((n.toNat + 3) / 4) + j) = payload[j]?) →
    readReg .inLen u = some len → len.toNat = 4 + 4 * ((n.toNat + 3) / 4) + payload.length →
    len.toNat ≤ u.bufCap →
    ∃ w, exec .unpack u = .next w ∧
      (flags ≠ 0 → statusIs w 0x24#8) ∧
      (flags = 0 → statusIs w 0x21#8 ∧
        readReg .uVersion w = some ((ver.extractLsb' 0 2).setWidth 16) ∧
        readReg .uC w = some ((c.extractLsb' 0 1).setWidth 16) ∧
        readReg .uHlen w = some (BitVec.ofNat 16 ((n.toNat + 3) / 4)) ∧
        readReg .uProtocol w = some ((proto.extractLsb' 0 8).setWidth 16) ∧
        readReg .uFlags w = some 0x0000#16 ∧
        ∃ extOff extLen payOff payLen : Half,
          readReg .uExtOff w = some extOff ∧ readReg .uExtLen w = some extLen ∧
          readReg .uPayOff w = some payOff ∧ readReg .uPayLen w = some payLen ∧
          extLen.toNat = 4 * ((n.toNat + 3) / 4) ∧
          (∀ i, i < n.toNat → Memory.read w.inBuf (extOff.toNat + i) = Memory.read s.inBuf i) ∧
          (∀ i, n.toNat ≤ i → i < extLen.toNat → Memory.read w.inBuf (extOff.toNat + i) = some 0x00#8) ∧
          payLen.toNat = payload.length ∧
          (∀ j, j < payload.length → Memory.read w.inBuf (payOff.toNat + j) = payload[j]?))

/-! ### Lines of the host (30_encoding.md R61) -/

/-- R61, R42: a line that writes is MemWrite of its offset, width and data, whatever the offset and width. That the host
moves to its next line in the same step is the model's choice (log 14), and that a W8 of a value wider than a byte writes
the low byte is its reading (log 7). -/
def Obligations.StepPerformsTheHostWrite : Prop :=
  ∀ (s : State) (line : HostLine) (a : Offset) (w : Nat) (d : HostData),
    currentLine s = some line → line.op = .write a w d → step s = memWrite a w (hostData d s) (advance s)

/-- R61: a script as written becomes the expansions of its lines one after another, and a label names the position where
its line's expansion begins, also where that expansion is empty. Of a doubled label the first line counts, and where labels
name the end of the script a HALT line stands there: the model's choices (log 10). The names and offsets that an expansion
uses carry logs 15 and 16. -/
def Obligations.LabelsNameWhereTheirLinesExpand : Prop :=
  (∀ script : List (List Label × ScriptOp), ∃ tail, (tail = [] ∨ tail = [HostOp.halt]) ∧
    (assemble script).map HostLine.op = script.flatMap (fun x => expand x.2) ++ tail) ∧
  (∀ (before after : List (List Label × ScriptOp)) (ls : List Label) (op : ScriptOp) (l : Label),
    l ∈ ls → (∀ x ∈ before, l ∉ x.1) →
    labelPos l (assemble (before ++ (ls, op) :: after)) = some (before.flatMap (fun x => expand x.2)).length)
end

