-- ==== Sys2Proof/Laws/Operands.lean ====
section
/-! SUPPORT. The operand reads of the commands: what each goes on with, and all it can answer. -/

namespace Sys2Proof.Machine

variable {i : Instr} {s t : State}

theorem needReg_of_some {r : Reg} {v : Half} {k : Half → Answer} (h : readReg r s = some v) :
    needReg i r s k = k v := by simp [needReg, h]

theorem needReg_of_none {r : Reg} {k : Half → Answer} (h : readReg r s = none) :
    needReg i r s k = .fault (.unwrittenRead (.command i) (.reg r)) := by simp [needReg, h]

theorem needReg_next {r : Reg} {k : Half → Answer} :
    needReg i r s k = .next t ↔ ∃ v, readReg r s = some v ∧ k v = .next t := by
  cases h : readReg r s <;> simp [needReg, h]

theorem needIn_of_some {j : Nat} {b : Byte} {k : Byte → Answer} (h : Memory.read s.inBuf j = some b) :
    needIn i j s k = k b := by simp [needIn, h]

theorem needIn_of_none {j : Nat} {k : Byte → Answer} (h : Memory.read s.inBuf j = none) :
    needIn i j s k = .fault (.unwrittenRead (.command i) (.inByte j)) := by simp [needIn, h]

theorem needIn_next {j : Nat} {k : Byte → Answer} :
    needIn i j s k = .next t ↔ ∃ b, Memory.read s.inBuf j = some b ∧ k b = .next t := by
  cases h : Memory.read s.inBuf j <;> simp [needIn, h]

/-- Bytes of IN that are all written, as a list. -/
theorem inRange_exists {j n : Nat} (h : ∀ x, x < n → ∃ b, Memory.read s.inBuf (j + x) = some b) :
    ∃ bs : List Byte, bs.length = n ∧ ∀ x, x < n → Memory.read s.inBuf (j + x) = bs[x]? := by
  induction n generalizing j with
  | zero => exact ⟨[], rfl, fun x hx => absurd hx (Nat.not_lt_zero x)⟩
  | succ n ih =>
    obtain ⟨b, hb⟩ := h 0 (Nat.succ_pos n)
    obtain ⟨bs, hl, hbs⟩ := ih (j := j + 1) (fun x hx => by
      have := h (x + 1) (by omega)
      rwa [show j + 1 + x = j + (x + 1) by omega])
    refine ⟨b :: bs, by simp [hl], fun x hx => ?_⟩
    cases x with
    | zero => simpa using hb
    | succ x =>
      rw [show j + (x + 1) = j + 1 + x by omega]
      simpa using hbs x (by omega)

/-- The range read goes on with the bytes that IN holds. -/
theorem needInRange_of_bytes {j n : Nat} {bs : List Byte} {k : List Byte → Answer} (hl : bs.length = n)
    (h : ∀ x, x < n → Memory.read s.inBuf (j + x) = bs[x]?) : needInRange i j n s k = k bs := by
  induction n generalizing j bs k with
  | zero => rw [List.length_eq_zero_iff.1 hl]; rfl
  | succ n ih =>
    cases bs with
    | nil => simp at hl
    | cons b rest =>
      have h0 : Memory.read s.inBuf j = some b := by simpa using h 0 (Nat.succ_pos n)
      rw [needInRange, needIn_of_some h0]
      refine ih (k := fun bs => k (b :: bs)) (by simpa using hl) (fun x hx => ?_)
      rw [show j + 1 + x = j + (x + 1) by omega]
      simpa using h (x + 1) (by omega)

/-- Where a byte of the range is unwritten, the first such byte is the fault (R62, R89). -/
theorem needInRange_fault {j n m : Nat} {k : List Byte → Answer} (hm : m < n)
    (hw : ∀ x, x < m → ∃ b, Memory.read s.inBuf (j + x) = some b)
    (hu : Memory.read s.inBuf (j + m) = none) :
    needInRange i j n s k = .fault (.unwrittenRead (.command i) (.inByte (j + m))) := by
  induction n generalizing j m k with
  | zero => exact absurd hm (Nat.not_lt_zero m)
  | succ n ih =>
    cases m with
    | zero => rw [needInRange, needIn_of_none (by simpa using hu)]; rfl
    | succ m =>
      obtain ⟨b, hb⟩ := hw 0 (Nat.succ_pos m)
      rw [needInRange, needIn_of_some (by simpa using hb)]
      have hu' : Memory.read s.inBuf (j + 1 + m) = none := by
        rwa [show j + 1 + m = j + (m + 1) by omega]
      have := ih (j := j + 1) (m := m) (k := fun bs => k (b :: bs)) (by omega) (fun x hx => by
        have := hw (x + 1) (by omega)
        rwa [show j + 1 + x = j + (x + 1) by omega]) hu'
      rw [this, show j + 1 + m = j + (m + 1) by omega]

theorem needInRange_next {j n : Nat} {k : List Byte → Answer} :
    needInRange i j n s k = .next t ↔
      ∃ bs : List Byte, bs.length = n ∧ (∀ x, x < n → Memory.read s.inBuf (j + x) = bs[x]?) ∧ k bs = .next t := by
  constructor
  · intro h
    by_cases hall : ∀ x, x < n → ∃ b, Memory.read s.inBuf (j + x) = some b
    · obtain ⟨bs, hl, hbs⟩ := inRange_exists hall
      exact ⟨bs, hl, hbs, by rwa [needInRange_of_bytes hl hbs] at h⟩
    · exfalso
      induction n generalizing j k with
      | zero => exact hall (fun x hx => absurd hx (Nat.not_lt_zero x))
      | succ n ih =>
        rw [needInRange, needIn_next] at h
        obtain ⟨b, hb, h⟩ := h
        refine ih h (fun hr => hall (fun x hx => ?_))
        cases x with
        | zero => exact ⟨b, hb⟩
        | succ x =>
          obtain ⟨b', hb'⟩ := hr x (by omega)
          exact ⟨b', by rwa [show j + (x + 1) = j + 1 + x by omega]⟩
  · rintro ⟨bs, hl, hbs, h⟩
    rwa [needInRange_of_bytes hl hbs]

theorem needLength_of_none {k : Nat → Answer} (h : readReg .inLen s = none) :
    needLength i s k = .fault (.unwrittenRead (.command i) (.reg .inLen)) := needReg_of_none h

theorem needLength_of_large {n : Half} {k : Nat → Answer} (h : readReg .inLen s = some n) (hn : s.bufCap < n.toNat) :
    needLength i s k = .fault (.lengthOutOfRange (.command i)) := by
  rw [needLength, needReg_of_some h, if_pos hn]

theorem needLength_of_fits {n : Half} {k : Nat → Answer} (h : readReg .inLen s = some n) (hn : n.toNat ≤ s.bufCap) :
    needLength i s k = k n.toNat := by
  rw [needLength, needReg_of_some h, if_neg (by omega)]

theorem needLength_next {k : Nat → Answer} :
    needLength i s k = .next t ↔
      ∃ n, readReg .inLen s = some n ∧ n.toNat ≤ s.bufCap ∧ k n.toNat = .next t := by
  rw [needLength, needReg_next]
  refine exists_congr (fun n => and_congr_right (fun _ => ?_))
  by_cases h : n.toNat > s.bufCap
  · simp [h]
  · simp [h, Nat.not_lt.1 h]

end Sys2Proof.Machine
end

