-- ==== Sys2Proof/Laws/Flags.lean ====
section
/-! SUPPORT. The byte halves of a 16-bit value, the converter on single bytes, the STATUS values and the sizes of a header. -/

namespace Sys2Proof.Machine

theorem joinBytes_toNat (hi lo : Byte) : (joinBytes hi lo).toNat = hi.toNat * 256 + lo.toNat := by
  have h : lo.toNat < 2 ^ 8 := lo.isLt
  rw [joinBytes, BitVec.toNat_append, ← Nat.shiftLeft_add_eq_or_of_lt h, Nat.shiftLeft_eq]

theorem lowByte_toNat (v : Half) : (lowByte v).toNat = v.toNat % 256 := by
  simp [lowByte, BitVec.extractLsb'_toNat]

theorem highByte_toNat (v : Half) : (highByte v).toNat = v.toNat / 256 := by
  have h : v.toNat < 2 ^ 16 := v.isLt
  simp only [highByte, BitVec.extractLsb'_toNat, Nat.shiftRight_eq_div_pow]
  omega

@[simp] theorem joinBytes_high_low (v : Half) : joinBytes (highByte v) (lowByte v) = v := by
  apply BitVec.eq_of_toNat_eq
  rw [joinBytes_toNat, lowByte_toNat, highByte_toNat]
  omega

@[simp] theorem lowByte_joinBytes (hi lo : Byte) : lowByte (joinBytes hi lo) = lo := by
  have h : lo.toNat < 2 ^ 8 := lo.isLt
  apply BitVec.eq_of_toNat_eq
  rw [lowByte_toNat, joinBytes_toNat]
  omega

@[simp] theorem highByte_joinBytes (hi lo : Byte) : highByte (joinBytes hi lo) = hi := by
  have h : lo.toNat < 2 ^ 8 := lo.isLt
  apply BitVec.eq_of_toNat_eq
  rw [highByte_toNat, joinBytes_toNat]
  omega

theorem joinBytes_inj {a b c d : Byte} : joinBytes a b = joinBytes c d ↔ a = c ∧ b = d := by
  constructor
  · intro h
    exact ⟨by simpa using congrArg highByte h, by simpa using congrArg lowByte h⟩
  · rintro ⟨rfl, rfl⟩; rfl

/-- hlen of an extension that PACK accepts. -/
theorem hlenOf_le_iff (n : Nat) : hlenOf n ≤ maxHlen ↔ n ≤ 124 := by
  unfold hlenOf maxHlen; omega

/-- The padded extension is the extension and then zeros (R65). -/
theorem padExtension_length (ext : List Byte) : (padExtension ext).length = 4 * hlenOf ext.length := by
  unfold padExtension hlenOf
  simp only [List.length_append, List.length_replicate]
  omega

theorem packBytes_length (ver : BitVec 2) (c : BitVec 1) (proto : Byte) (flags : Half) (ext : List Byte) :
    (packBytes ver c proto flags ext).length = headerBytes (hlenOf ext.length) := by
  simp [packBytes, padExtension_length, headerBytes, hdrFixed]
  omega

/-- Byte 4 + i of PACK's output: the extension byte i, then zeros up to 4×hlen (R62, R65). -/
theorem packBytes_extension (ver : BitVec 2) (c : BitVec 1) (proto : Byte) (flags : Half) (ext : List Byte) (i : Nat) :
    (packBytes ver c proto flags ext)[4 + i]? =
      if i < ext.length then ext[i]? else if i < 4 * hlenOf ext.length then some 0x00#8 else none := by
  have e : (packBytes ver c proto flags ext)[4 + i]? = (padExtension ext)[i]? := by
    rw [Nat.add_comm]; rfl
  rw [e, padExtension]
  split
  · rename_i h; rw [List.getElem?_append_left h]
  · rename_i h
    rw [List.getElem?_append_right (by omega), List.getElem?_replicate]
    by_cases h2 : i < 4 * hlenOf ext.length
    · rw [if_pos (by omega), if_pos h2]
    · rw [if_neg (by omega), if_neg h2]

theorem versionOf_headerByte0 (v : BitVec 2) (c : BitVec 1) (h : BitVec 5) :
    versionOf (headerByte0 v c h) = v := by revert v c h; decide

theorem controlOf_headerByte0 (v : BitVec 2) (c : BitVec 1) (h : BitVec 5) :
    controlOf (headerByte0 v c h) = c := by revert v c h; decide

theorem headerLenOf_headerByte0 (v : BitVec 2) (c : BitVec 1) (h : BitVec 5) :
    headerLenOf (headerByte0 v c h) = h := by revert v c h; decide

end Sys2Proof.Machine
end

