-- ==== Sys2Proof/Laws/Memory.lean ====
section
/-! SUPPORT. The sparse arrays: what is read after an update, and that every update keeps the canonical form. -/

namespace Sys2Proof.Machine

variable {α : Type}

@[simp] theorem Memory.read_nil (a : Nat) : Memory.read ([] : List (Nat × α)) a = none := rfl

/-- A read after a write: the value written at its index, and every other index as before. -/
theorem Memory.read_write (a : Nat) (v : α) (m : List (Nat × α)) (b : Nat) :
    Memory.read (Memory.write a v m) b = if a = b then some v else Memory.read m b := by
  induction m with
  | nil => rfl
  | cons c rest ih =>
    obtain ⟨k, w⟩ := c
    by_cases h1 : a < k
    · simp [Memory.write, Memory.read, h1]
    · by_cases h2 : a = k
      · subst h2
        by_cases h3 : a = b <;> simp [Memory.write, Memory.read, h3]
      · by_cases h3 : k = b
        · subst h3
          simp [Memory.write, Memory.read, h1, h2]
        · simp [Memory.write, Memory.read, h1, h2, h3, ih]

@[simp] theorem Memory.read_write_same (a : Nat) (v : α) (m : List (Nat × α)) :
    Memory.read (Memory.write a v m) a = some v := by simp [Memory.read_write]

theorem Memory.read_write_ne {a b : Nat} (h : a ≠ b) (v : α) (m : List (Nat × α)) :
    Memory.read (Memory.write a v m) b = Memory.read m b := by simp [Memory.read_write, h]

/-- A poisoned index reads as unwritten, and every other index as before. -/
theorem Memory.read_poison (p : Nat → Bool) (m : List (Nat × α)) (b : Nat) :
    Memory.read (Memory.poison p m) b = if p b then none else Memory.read m b := by
  induction m with
  | nil => simp [Memory.poison]
  | cons c rest ih =>
    obtain ⟨k, w⟩ := c
    simp only [Memory.poison] at ih
    by_cases h : p k
    · by_cases h3 : k = b
      · subst h3; simp [Memory.poison, h, ih]
      · simp [Memory.poison, Memory.read, h, ih, h3]
    · by_cases h3 : k = b
      · subst h3; simp [Memory.poison, Memory.read, h]
      · simp [Memory.poison, Memory.read, h, ih, h3]

/-- The array of some values from index `i` on, index by index. -/
theorem Memory.read_ofBytes (i : Nat) (l : List α) (b : Nat) :
    Memory.read (Memory.ofBytes i l) b = if i ≤ b then l[b - i]? else none := by
  induction l generalizing i with
  | nil => simp [Memory.ofBytes]
  | cons x rest ih =>
    by_cases h : i = b
    · subst h; simp [Memory.ofBytes, Memory.read]
    · by_cases h2 : i ≤ b
      · have e : b - i = (b - (i + 1)) + 1 := by omega
        have h3 : i + 1 ≤ b := by omega
        simp [Memory.ofBytes, Memory.read, ih, h, h2, e, h3]
      · have h3 : ¬ i + 1 ≤ b := by omega
        simp [Memory.ofBytes, Memory.read, ih, h, h2, h3]

theorem Memory.read_ofBytes_zero (l : List α) (b : Nat) :
    Memory.read (Memory.ofBytes 0 l) b = l[b]? := by simp [Memory.read_ofBytes]

/-- An entry after a write is the one written or one from before. -/
theorem Memory.mem_write {a : Nat} {v : α} {m : List (Nat × α)} {c : Nat × α}
    (h : c ∈ Memory.write a v m) : c = (a, v) ∨ c ∈ m := by
  induction m with
  | nil => simpa [Memory.write] using h
  | cons d rest ih =>
    obtain ⟨k, w⟩ := d
    unfold Memory.write at h
    split at h
    · simpa using h
    · split at h
      · rcases List.mem_cons.1 h with h | h
        · exact .inl h
        · exact .inr (List.mem_cons_of_mem _ h)
      · rcases List.mem_cons.1 h with h | h
        · exact .inr (h ▸ List.mem_cons_self)
        · exact (ih h).imp_right (List.mem_cons_of_mem _)

/-- A write keeps the canonical form. -/
theorem Memory.wf_write (a : Nat) (v : α) {m : List (Nat × α)} (h : Memory.wf m) :
    Memory.wf (Memory.write a v m) := by
  induction m with
  | nil => simp [Memory.write]
  | cons d rest ih =>
    obtain ⟨k, w⟩ := d
    obtain ⟨h1, h2⟩ := List.pairwise_cons.1 h
    unfold Memory.write
    split
    · refine List.pairwise_cons.2 ⟨fun c hc => ?_, h⟩
      rcases List.mem_cons.1 hc with rfl | hc
      · assumption
      · exact Nat.lt_trans (by assumption) (h1 c hc)
    · split
      · rename_i e; subst e
        exact List.pairwise_cons.2 ⟨h1, h2⟩
      · refine List.pairwise_cons.2 ⟨fun c hc => ?_, ih h2⟩
        rcases Memory.mem_write hc with rfl | hc
        · simp only; omega
        · exact h1 c hc

/-- Poisoning keeps the canonical form. -/
theorem Memory.wf_poison (p : Nat → Bool) {m : List (Nat × α)} (h : Memory.wf m) :
    Memory.wf (Memory.poison p m) := List.Pairwise.filter _ h

theorem Memory.mem_ofBytes {i : Nat} {l : List α} {c : Nat × α} (h : c ∈ Memory.ofBytes i l) :
    i ≤ c.1 ∧ c.1 < i + l.length := by
  induction l generalizing i with
  | nil => simp [Memory.ofBytes] at h
  | cons x rest ih =>
    rcases List.mem_cons.1 h with rfl | h
    · simp
    · have := ih h
      simp only [List.length_cons]
      omega

/-- An array laid out from a list is in canonical form. -/
theorem Memory.wf_ofBytes (i : Nat) (l : List α) : Memory.wf (Memory.ofBytes i l) := by
  induction l generalizing i with
  | nil => simp [Memory.ofBytes]
  | cons x rest ih =>
    refine List.pairwise_cons.2 ⟨fun c hc => ?_, ih (i + 1)⟩
    have := Memory.mem_ofBytes hc
    simp only
    omega

/-- In canonical form, writing what an index already holds changes nothing. -/
theorem Memory.write_of_read {a : Nat} {v : α} {m : List (Nat × α)} (hwf : Memory.wf m)
    (h : Memory.read m a = some v) : Memory.write a v m = m := by
  induction m with
  | nil => simp at h
  | cons d rest ih =>
    obtain ⟨k, w⟩ := d
    obtain ⟨h1, h2⟩ := List.pairwise_cons.1 hwf
    by_cases e : k = a
    · subst e
      simp only [Memory.read, if_true, Option.some.injEq] at h
      simp [Memory.write, h]
    · simp only [Memory.read, e, if_false] at h
      have hmem : ∃ c ∈ rest, c.1 = a := by
        clear ih h1 h2 hwf
        induction rest with
        | nil => simp at h
        | cons x t ih2 =>
          obtain ⟨k2, w2⟩ := x
          by_cases e2 : k2 = a
          · exact ⟨_, List.mem_cons_self, e2⟩
          · simp only [Memory.read, e2, if_false] at h
            obtain ⟨c, hc, hca⟩ := ih2 h
            exact ⟨c, List.mem_cons_of_mem _ hc, hca⟩
      obtain ⟨c, hc, hca⟩ := hmem
      have hlt := h1 c hc
      have h3 : ¬ a < k := by simp only at hlt; omega
      have h4 : ¬ a = k := fun e' => e e'.symm
      simp [Memory.write, h3, h4, ih h2 h]

end Sys2Proof.Machine
end

