-- ==== Sys2Proof/Laws/State.lean ====
section
/-! SUPPORT. What each update of the state leaves in each field, one lemma a field an update. -/

namespace Sys2Proof.Machine

section
variable (s : State) (r : Reg) (v : Half) (rs : List Reg) (bytes : List Byte) (t : HostVar)

@[simp] theorem writeReg_bufCap : (writeReg r v s).bufCap = s.bufCap := rfl
@[simp] theorem writeReg_out : (writeReg r v s).out = s.out := rfl
@[simp] theorem writeReg_inBuf : (writeReg r v s).inBuf = s.inBuf := rfl
@[simp] theorem writeReg_script : (writeReg r v s).script = s.script := rfl
@[simp] theorem writeReg_pos : (writeReg r v s).pos = s.pos := rfl
@[simp] theorem writeReg_vars : (writeReg r v s).vars = s.vars := rfl

@[simp] theorem poisonRegs_bufCap : (poisonRegs rs s).bufCap = s.bufCap := rfl
@[simp] theorem poisonRegs_out : (poisonRegs rs s).out = s.out := rfl
@[simp] theorem poisonRegs_inBuf : (poisonRegs rs s).inBuf = s.inBuf := rfl
@[simp] theorem poisonRegs_script : (poisonRegs rs s).script = s.script := rfl
@[simp] theorem poisonRegs_pos : (poisonRegs rs s).pos = s.pos := rfl
@[simp] theorem poisonRegs_vars : (poisonRegs rs s).vars = s.vars := rfl

@[simp] theorem writeOut_bufCap : (writeOut bytes s).bufCap = s.bufCap := rfl
@[simp] theorem writeOut_regs : (writeOut bytes s).regs = s.regs := rfl
@[simp] theorem writeOut_out : (writeOut bytes s).out = Memory.ofBytes 0 bytes := rfl
@[simp] theorem writeOut_inBuf : (writeOut bytes s).inBuf = s.inBuf := rfl
@[simp] theorem writeOut_script : (writeOut bytes s).script = s.script := rfl
@[simp] theorem writeOut_pos : (writeOut bytes s).pos = s.pos := rfl
@[simp] theorem writeOut_vars : (writeOut bytes s).vars = s.vars := rfl

@[simp] theorem advance_bufCap : (advance s).bufCap = s.bufCap := rfl
@[simp] theorem advance_regs : (advance s).regs = s.regs := rfl
@[simp] theorem advance_out : (advance s).out = s.out := rfl
@[simp] theorem advance_inBuf : (advance s).inBuf = s.inBuf := rfl
@[simp] theorem advance_script : (advance s).script = s.script := rfl
@[simp] theorem advance_pos : (advance s).pos = s.pos + 1 := rfl
@[simp] theorem advance_vars : (advance s).vars = s.vars := rfl

@[simp] theorem setHostVar_bufCap : (setHostVar t v s).bufCap = s.bufCap := rfl
@[simp] theorem setHostVar_regs : (setHostVar t v s).regs = s.regs := rfl
@[simp] theorem setHostVar_out : (setHostVar t v s).out = s.out := rfl
@[simp] theorem setHostVar_inBuf : (setHostVar t v s).inBuf = s.inBuf := rfl
@[simp] theorem setHostVar_script : (setHostVar t v s).script = s.script := rfl
@[simp] theorem setHostVar_pos : (setHostVar t v s).pos = s.pos := rfl
@[simp] theorem setHostVar_vars : (setHostVar t v s).vars = Memory.write t v s.vars := rfl

@[simp] theorem applyReset_bufCap : (applyReset s).bufCap = s.bufCap := rfl
@[simp] theorem applyReset_regs : (applyReset s).regs = [(0x01, 0x00#8)] := rfl
@[simp] theorem applyReset_out : (applyReset s).out = [] := rfl
@[simp] theorem applyReset_inBuf : (applyReset s).inBuf = [] := rfl
@[simp] theorem applyReset_script : (applyReset s).script = s.script := rfl
@[simp] theorem applyReset_pos : (applyReset s).pos = s.pos := rfl
@[simp] theorem applyReset_vars : (applyReset s).vars = s.vars := rfl

@[simp] theorem poisonResults_pack_out : (poisonResults .pack s).out = [] := rfl
@[simp] theorem poisonResults_unpack_out : (poisonResults .unpack s).out = s.out := rfl
@[simp] theorem poisonResults_noCommand : poisonResults .noCommand s = s := rfl

end

section
variable (s : State) (c : Command) (f : Failure) (p : Place) (v : Byte)

@[simp] theorem poisonResults_bufCap : (poisonResults c s).bufCap = s.bufCap := by cases c <;> rfl
@[simp] theorem poisonResults_inBuf : (poisonResults c s).inBuf = s.inBuf := by cases c <;> rfl
@[simp] theorem poisonResults_script : (poisonResults c s).script = s.script := by cases c <;> rfl
@[simp] theorem poisonResults_pos : (poisonResults c s).pos = s.pos := by cases c <;> rfl
@[simp] theorem poisonResults_vars : (poisonResults c s).vars = s.vars := by cases c <;> rfl

@[simp] theorem raiseFail_bufCap : (raiseFail c f s).bufCap = s.bufCap := by cases c <;> rfl
@[simp] theorem raiseFail_inBuf : (raiseFail c f s).inBuf = s.inBuf := by cases c <;> rfl
@[simp] theorem raiseFail_script : (raiseFail c f s).script = s.script := by cases c <;> rfl
@[simp] theorem raiseFail_pos : (raiseFail c f s).pos = s.pos := by cases c <;> rfl
@[simp] theorem raiseFail_vars : (raiseFail c f s).vars = s.vars := by cases c <;> rfl
@[simp] theorem raiseFail_out : (raiseFail c f s).out = (poisonResults c s).out := rfl

@[simp] theorem Place.write_bufCap : (p.write v s).bufCap = s.bufCap := by cases p <;> rfl
@[simp] theorem Place.write_script : (p.write v s).script = s.script := by cases p <;> rfl
@[simp] theorem Place.write_pos : (p.write v s).pos = s.pos := by cases p <;> rfl
@[simp] theorem Place.write_vars : (p.write v s).vars = s.vars := by cases p <;> rfl

end

/-- The whole update of a typed failure on the registers (R83, R88): poison, then STATUS. -/
theorem raiseFail_regs (c : Command) (f : Failure) (s : State) :
    (raiseFail c f s).regs = Memory.write 0x01 (failureStatus c f) (poisonResults c s).regs := by
  cases c <;> cases f <;> rfl

end Sys2Proof.Machine
end

