-- ==== Sys2Proof/Laws/Registers.lean ====
section
/-! SUPPORT. The registers: what is read after a register is written or poisoned. -/

namespace Sys2Proof.Machine

/-- What a write of v leaves in a register: v cut to the register's width (00_scope.md R5). -/
def Reg.cut (r : Reg) (v : Half) : Half := if r.row.size = 1 then joinBytes 0 (lowByte v) else v

/-- No two registers share a byte (10_state.md, register map). -/
theorem Reg.rows_disjoint (r q : Reg) (h : r ≠ q) :
    r.row.offset + r.row.size ≤ q.row.offset ∨ q.row.offset + q.row.size ≤ r.row.offset := by
  revert h; cases r <;> cases q <;> decide

theorem Reg.size_one_or_two (r : Reg) : r.row.size = 1 ∨ r.row.size = 2 := by cases r <;> decide

theorem Reg.covers_iff (r : Reg) (a : Nat) :
    r.covers a = true ↔ r.row.offset ≤ a ∧ a < r.row.offset + r.row.size := by
  simp [Reg.covers]

/-- A byte of REGS after a register is written. -/
theorem read_writeReg (r : Reg) (v : Half) (s : State) (a : Nat) :
    Memory.read (writeReg r v s).regs a =
      if a = r.row.offset then some (lowByte v)
      else if a = r.row.offset + 1 ∧ r.row.size = 2 then some (highByte v)
      else Memory.read s.regs a := by
  rcases r.size_one_or_two with h | h
  · by_cases h1 : a = r.row.offset
    · simp [writeReg, h, h1]
    · simp [writeReg, h, h1, Memory.read_write, Ne.symm h1]
  · by_cases h1 : a = r.row.offset
    · simp [writeReg, h, h1, Memory.read_write]
    · by_cases h2 : a = r.row.offset + 1
      · simp [writeReg, h, h2]
      · simp [writeReg, h, h1, h2, Memory.read_write, Ne.symm h1, Ne.symm h2]

theorem read_writeReg_outside {r : Reg} {a : Nat} (h : ¬ r.covers a = true) (v : Half) (s : State) :
    Memory.read (writeReg r v s).regs a = Memory.read s.regs a := by
  rw [Reg.covers_iff] at h
  have := r.size_one_or_two
  rw [read_writeReg, if_neg (by omega), if_neg (by omega)]

/-- A 16-bit register keeps all of what is written. -/
theorem Reg.cut_wide {r : Reg} (h : r.row.size = 2) (v : Half) : r.cut v = v := by simp [Reg.cut, h]

/-- A value of at most 8 bits is kept by every register. -/
theorem Reg.cut_small (r : Reg) {v : Half} (h : v.toNat < 256) : r.cut v = v := by
  unfold Reg.cut
  split
  · apply BitVec.eq_of_toNat_eq
    rw [joinBytes_toNat, lowByte_toNat]
    simp; omega
  · rfl

/-- A register's value depends on its own bytes alone. -/
theorem readReg_congr {s t : State} (r : Reg)
    (h : ∀ a, r.covers a = true → Memory.read t.regs a = Memory.read s.regs a) :
    readReg r t = readReg r s := by
  have h0 := h r.row.offset (by rw [Reg.covers_iff]; rcases r.size_one_or_two with e | e <;> omega)
  rcases r.size_one_or_two with e | e
  · simp [readReg, h0, e]
  · have h1 := h (r.row.offset + 1) (by rw [Reg.covers_iff]; omega)
    simp [readReg, h0, h1]

theorem readReg_writeReg_same (r : Reg) (v : Half) (s : State) :
    readReg r (writeReg r v s) = some (r.cut v) := by
  rcases r.size_one_or_two with e | e
  · simp [readReg, read_writeReg, Reg.cut, e]
  · simp [readReg, read_writeReg, Reg.cut, e]

theorem readReg_writeReg_ne {r q : Reg} (h : r ≠ q) (v : Half) (s : State) :
    readReg q (writeReg r v s) = readReg q s := by
  refine readReg_congr q (fun a ha => ?_)
  rw [Reg.covers_iff] at ha
  have hd := Reg.rows_disjoint r q h
  rcases r.size_one_or_two with e | e
  · rw [read_writeReg, if_neg (by omega), if_neg (by omega)]
  · rw [read_writeReg, if_neg (by omega), if_neg (by omega)]

/-- A register after any register is written. -/
theorem readReg_writeReg (r q : Reg) (v : Half) (s : State) :
    readReg q (writeReg r v s) = if r = q then some (r.cut v) else readReg q s := by
  split
  · rename_i h; subst h; exact readReg_writeReg_same r v s
  · rename_i h; exact readReg_writeReg_ne h v s

/-- A byte of REGS after some registers are poisoned. -/
theorem read_poisonRegs (rs : List Reg) (s : State) (a : Nat) :
    Memory.read (poisonRegs rs s).regs a =
      if rs.any (fun r => r.covers a) then none else Memory.read s.regs a :=
  Memory.read_poison (fun b => rs.any (fun r => r.covers b)) s.regs a

/-- A byte belongs to one register at most. -/
theorem Reg.covers_unique {r q : Reg} {a : Nat} (hr : r.covers a = true) (hq : q.covers a = true) : r = q := by
  rw [Reg.covers_iff] at hr hq
  by_contra h
  have := Reg.rows_disjoint r q h
  omega

theorem readReg_poisonRegs (rs : List Reg) (q : Reg) (s : State) :
    readReg q (poisonRegs rs s) = if q ∈ rs then none else readReg q s := by
  have hcov : q.covers q.row.offset = true := by
    rw [Reg.covers_iff]; rcases q.size_one_or_two with e | e <;> omega
  split
  · rename_i h
    have : Memory.read (poisonRegs rs s).regs q.row.offset = none := by
      rw [read_poisonRegs, if_pos (List.any_eq_true.2 ⟨q, h, hcov⟩)]
    simp [readReg, this]
  · rename_i h
    refine readReg_congr q (fun a ha => ?_)
    rw [read_poisonRegs, if_neg]
    intro hany
    obtain ⟨r, hr, hra⟩ := List.any_eq_true.1 hany
    exact h (Reg.covers_unique hra ha ▸ hr)

/-- A register whose first byte is unwritten has no value (R8). -/
theorem readReg_of_first_unwritten {r : Reg} {s : State} (h : Memory.read s.regs r.row.offset = none) :
    readReg r s = none := by simp [readReg, h]

/-- STATUS by its byte and as a register. -/
theorem readReg_status (s : State) : readReg .status s = (Memory.read s.regs 0x01).map (joinBytes 0) := by
  cases h : Memory.read s.regs 0x01 <;> simp [readReg, Reg.row, h]

/-- An 8-bit register holds at most 255. -/
theorem readReg_byte {r : Reg} {s : State} {v : Half} (hr : r.row.size = 1) (h : readReg r s = some v) :
    Memory.read s.regs r.row.offset = some (lowByte v) ∧ v = joinBytes 0 (lowByte v) := by
  unfold readReg at h
  split at h
  · exact absurd h (by simp)
  · rename_i lo e
    rw [if_pos hr] at h
    have hv := (Option.some.inj h).symm
    subst hv
    simp [e]

/-- The bytes of a register that has a value (R8, R41). -/
theorem bytes_of_readReg {r : Reg} {s : State} {v : Half} (h : readReg r s = some v) :
    Memory.read s.regs r.row.offset = some (lowByte v) ∧
    (r.row.size = 2 → Memory.read s.regs (r.row.offset + 1) = some (highByte v)) := by
  rcases r.size_one_or_two with e | e
  · exact ⟨(readReg_byte e h).1, fun h2 => by omega⟩
  · unfold readReg at h
    split at h
    · exact absurd h (by simp)
    · rename_i lo hlo
      rw [if_neg (by omega)] at h
      split at h
      · exact absurd h (by simp)
      · rename_i hi hhi
        have hv := (Option.some.inj h).symm
        subst hv
        simp [hlo, hhi]

/-- A 16-bit register's value from its two bytes (R8, R41). -/
theorem readReg_of_bytes {r : Reg} {s : State} {lo hi : Byte} (hr : r.row.size = 2)
    (h0 : Memory.read s.regs r.row.offset = some lo) (h1 : Memory.read s.regs (r.row.offset + 1) = some hi) :
    readReg r s = some (joinBytes hi lo) := by
  simp [readReg, h0, h1, hr]

/-- Writing a register keeps REGS in canonical form. -/
theorem wf_writeReg (r : Reg) (v : Half) {s : State} (h : Memory.wf s.regs) : Memory.wf (writeReg r v s).regs := by
  unfold writeReg
  dsimp only
  split
  · exact Memory.wf_write _ _ h
  · exact Memory.wf_write _ _ (Memory.wf_write _ _ h)

/-- An entry of REGS after a register write is of that register or from before. -/
theorem mem_writeReg {r : Reg} {v : Half} {s : State} {c : Host.Cell} (h : c ∈ (writeReg r v s).regs) :
    r.covers c.1 = true ∨ c ∈ s.regs := by
  rw [Reg.covers_iff]
  unfold writeReg at h
  dsimp only at h
  split at h
  · rcases Memory.mem_write h with rfl | h
    · left; simp only; omega
    · exact .inr h
  · have := r.size_one_or_two
    rcases Memory.mem_write h with rfl | h
    · left; simp only; omega
    · rcases Memory.mem_write h with rfl | h
      · left; simp only; omega
      · exact .inr h

end Sys2Proof.Machine
end

