-- ==== Sys2Proof/Laws/Commands.lean ====
section
/-! SUPPORT. The commands: all that each can answer as a next state, and what the results leave. -/

namespace Sys2Proof.Machine

variable {s t : State}

/-- All a next state of PACK can be: the typed failure, or the packed result of operands that are all written. -/
theorem execPack_cases (h : execPack s = .next t) :
    ∃ n ver c proto flags, readReg .inLen s = some n ∧ n.toNat ≤ s.bufCap ∧
      readReg .hVersion s = some ver ∧ readReg .hC s = some c ∧
      readReg .hProtocol s = some proto ∧ readReg .hFlags s = some flags ∧
      ((124 < n.toNat ∧ t = raiseFail .pack .extensionTooLarge s) ∨
       (n.toNat ≤ 124 ∧ ∃ ext : List Byte, ext.length = n.toNat ∧
          (∀ x, x < n.toNat → Memory.read s.inBuf x = ext[x]?) ∧
          t = packDone (ver.extractLsb' 0 2) (c.extractLsb' 0 1) (lowByte proto) flags ext s)) := by
  unfold execPack at h
  obtain ⟨n, hn, hcap, h⟩ := needLength_next.1 h
  obtain ⟨ver, hv, h⟩ := needReg_next.1 h
  obtain ⟨c, hc, h⟩ := needReg_next.1 h
  obtain ⟨proto, hp, h⟩ := needReg_next.1 h
  obtain ⟨flags, hf, h⟩ := needReg_next.1 h
  refine ⟨n, ver, c, proto, flags, hn, hcap, hv, hc, hp, hf, ?_⟩
  have hle := hlenOf_le_iff n.toNat
  split at h
  · exact .inl ⟨by omega, by injection h with h; exact h.symm⟩
  · obtain ⟨ext, hl, hx, h⟩ := needInRange_next.1 h
    exact .inr ⟨by omega, ext, hl, by simpa using hx, by injection h with h; exact h.symm⟩

/-- All a next state of UNPACK can be: one of its three failures in their order, or the decoded result. -/
theorem execUnpack_cases (h : execUnpack s = .next t) :
    ∃ n, readReg .inLen s = some n ∧ n.toNat ≤ s.bufCap ∧
      ((n.toNat < 4 ∧ t = raiseFail .unpack .truncatedHeader s) ∨
       (4 ≤ n.toNat ∧ ∃ b0 b1 b2 b3, Memory.read s.inBuf 0 = some b0 ∧ Memory.read s.inBuf 1 = some b1 ∧
          Memory.read s.inBuf 2 = some b2 ∧ Memory.read s.inBuf 3 = some b3 ∧
          ((flagsFromWire b2 b3 ≠ 0 ∧ t = raiseFail .unpack .unsupportedFlags s) ∨
           (flagsFromWire b2 b3 = 0 ∧ n.toNat < 4 + 4 * (headerLenOf b0).toNat ∧
              t = raiseFail .unpack .truncatedHeader s) ∨
           (flagsFromWire b2 b3 = 0 ∧ 4 + 4 * (headerLenOf b0).toNat ≤ n.toNat ∧
              t = unpackDone n.toNat b0 b1 (flagsFromWire b2 b3) s)))) := by
  unfold execUnpack at h
  obtain ⟨n, hn, hcap, h⟩ := needLength_next.1 h
  refine ⟨n, hn, hcap, ?_⟩
  split at h
  · rename_i hlt
    exact .inl ⟨hlt, by injection h with h; exact h.symm⟩
  · rename_i hge
    obtain ⟨b0, h0, h⟩ := needIn_next.1 h
    obtain ⟨b1, h1, h⟩ := needIn_next.1 h
    obtain ⟨b2, h2, h⟩ := needIn_next.1 h
    obtain ⟨b3, h3, h⟩ := needIn_next.1 h
    refine .inr ⟨Nat.le_of_not_lt hge, b0, b1, b2, b3, h0, h1, h2, h3, ?_⟩
    split at h
    · exact .inl ⟨by assumption, by injection h with h; exact h.symm⟩
    · rename_i hf
      have hf := not_not.1 hf
      split at h
      · exact .inr (.inl ⟨hf, by assumption, by injection h with h; exact h.symm⟩)
      · rename_i hlen
        exact .inr (.inr ⟨hf, Nat.le_of_not_lt hlen, by injection h with h; exact h.symm⟩)

/-- A byte of REGS after a successful PACK (R62): STATUS, OUT_LEN and P_HLEN, and every other byte as before. -/
theorem packDone_read_regs (ver : BitVec 2) (c : BitVec 1) (proto : Byte) (flags : Half) (ext : List Byte) (s : State)
    (a : Nat) :
    Memory.read (packDone ver c proto flags ext s).regs a =
      if a = 0x01 then some 0x11#8
      else if a = 0x0A then some (lowByte (BitVec.ofNat 16 (headerBytes (hlenOf ext.length))))
      else if a = 0x0B then some (highByte (BitVec.ofNat 16 (headerBytes (hlenOf ext.length))))
      else if a = 0x0C then some (lowByte (BitVec.ofNat 16 (hlenOf ext.length)))
      else Memory.read s.regs a := by
  simp only [packDone, read_writeReg, Reg.row]
  by_cases h1 : a = 0x01
  · subst h1; simp [successStatus, statusByte, Command.code]
  · by_cases h2 : a = 0x0A
    · subst h2; simp
    · by_cases h3 : a = 0x0B
      · subst h3; simp
      · by_cases h4 : a = 0x0C
        · subst h4; simp
        · simp [h1, h2, h3, h4]

@[simp] theorem packDone_out (ver : BitVec 2) (c : BitVec 1) (proto : Byte) (flags : Half) (ext : List Byte)
    (s : State) : (packDone ver c proto flags ext s).out = Memory.ofBytes 0 (packBytes ver c proto flags ext) := by
  simp only [packDone, writeReg_out, writeOut_out]
@[simp] theorem packDone_inBuf (ver : BitVec 2) (c : BitVec 1) (proto : Byte) (flags : Half) (ext : List Byte)
    (s : State) : (packDone ver c proto flags ext s).inBuf = s.inBuf := by
  simp only [packDone, writeReg_inBuf, writeOut_inBuf]
@[simp] theorem packDone_bufCap (ver : BitVec 2) (c : BitVec 1) (proto : Byte) (flags : Half) (ext : List Byte)
    (s : State) : (packDone ver c proto flags ext s).bufCap = s.bufCap := by
  simp only [packDone, writeReg_bufCap, writeOut_bufCap]
@[simp] theorem packDone_script (ver : BitVec 2) (c : BitVec 1) (proto : Byte) (flags : Half) (ext : List Byte)
    (s : State) : (packDone ver c proto flags ext s).script = s.script := by
  simp only [packDone, writeReg_script, writeOut_script]
@[simp] theorem packDone_pos (ver : BitVec 2) (c : BitVec 1) (proto : Byte) (flags : Half) (ext : List Byte)
    (s : State) : (packDone ver c proto flags ext s).pos = s.pos := by
  simp only [packDone, writeReg_pos, writeOut_pos]
@[simp] theorem packDone_vars (ver : BitVec 2) (c : BitVec 1) (proto : Byte) (flags : Half) (ext : List Byte)
    (s : State) : (packDone ver c proto flags ext s).vars = s.vars := by
  simp only [packDone, writeReg_vars, writeOut_vars]

@[simp] theorem unpackDone_out (n : Nat) (b0 proto : Byte) (flags : Half) (s : State) :
    (unpackDone n b0 proto flags s).out = s.out := by
  simp only [unpackDone, writeReg_out]
@[simp] theorem unpackDone_inBuf (n : Nat) (b0 proto : Byte) (flags : Half) (s : State) :
    (unpackDone n b0 proto flags s).inBuf = s.inBuf := by
  simp only [unpackDone, writeReg_inBuf]
@[simp] theorem unpackDone_bufCap (n : Nat) (b0 proto : Byte) (flags : Half) (s : State) :
    (unpackDone n b0 proto flags s).bufCap = s.bufCap := by
  simp only [unpackDone, writeReg_bufCap]
@[simp] theorem unpackDone_script (n : Nat) (b0 proto : Byte) (flags : Half) (s : State) :
    (unpackDone n b0 proto flags s).script = s.script := by
  simp only [unpackDone, writeReg_script]
@[simp] theorem unpackDone_pos (n : Nat) (b0 proto : Byte) (flags : Half) (s : State) :
    (unpackDone n b0 proto flags s).pos = s.pos := by
  simp only [unpackDone, writeReg_pos]
@[simp] theorem unpackDone_vars (n : Nat) (b0 proto : Byte) (flags : Half) (s : State) :
    (unpackDone n b0 proto flags s).vars = s.vars := by
  simp only [unpackDone, writeReg_vars]

/-- A register after a successful UNPACK (R69). -/
theorem unpackDone_readReg (n : Nat) (b0 proto : Byte) (flags : Half) (s : State) (r : Reg) :
    readReg r (unpackDone n b0 proto flags s) =
      match r with
      | .status => some 0x21#16
      | .uVersion => some ((versionOf b0).setWidth 16)
      | .uC => some ((controlOf b0).setWidth 16)
      | .uHlen => some ((headerLenOf b0).setWidth 16)
      | .uProtocol => some (joinBytes 0 proto)
      | .uFlags => some flags
      | .uExtOff => some 4#16
      | .uExtLen => some (BitVec.ofNat 16 (4 * (headerLenOf b0).toNat))
      | .uPayOff => some (BitVec.ofNat 16 (headerBytes (headerLenOf b0).toNat))
      | .uPayLen => some (BitVec.ofNat 16 (n - headerBytes (headerLenOf b0).toNat))
      | q => readReg q s := by
  have hv : ((versionOf b0).setWidth 16).toNat < 256 := by simp; omega
  have hc : ((controlOf b0).setWidth 16).toNat < 256 := by simp; omega
  have hh : ((headerLenOf b0).setWidth 16).toNat < 256 := by simp; omega
  have hp : (joinBytes 0 proto).toNat < 256 := by rw [joinBytes_toNat]; simp; omega
  have hs : (joinBytes 0 (successStatus .unpack)).toNat < 256 := by decide
  unfold unpackDone
  simp only [readReg_writeReg, Reg.cut_small _ hv, Reg.cut_small _ hc, Reg.cut_small _ hh, Reg.cut_small _ hp,
    Reg.cut_small _ hs]
  cases r <;> rfl

/-- A byte of REGS that no result of UNPACK covers is as before a successful UNPACK (R75). -/
theorem unpackDone_read_regs_outside (n : Nat) (b0 proto : Byte) (flags : Half) (s : State) (a : Nat)
    (h1 : a ≠ 0x01) (h2 : ¬ (0x10 ≤ a ∧ a ≤ 0x1D)) :
    Memory.read (unpackDone n b0 proto flags s).regs a = Memory.read s.regs a := by
  have hout : ∀ r ∈ unpackResultRegs, ¬ r.covers a = true := by
    intro r hr
    simp only [unpackResultRegs, List.mem_cons, List.not_mem_nil, or_false] at hr
    rcases hr with rfl | rfl | rfl | rfl | rfl | rfl | rfl | rfl | rfl <;>
      simp only [Reg.covers_iff, Reg.row] <;> omega
  have hst : ¬ Reg.covers .status a = true := by simp only [Reg.covers_iff, Reg.row]; omega
  unfold unpackDone
  rw [read_writeReg_outside hst]
  iterate 9 rw [read_writeReg_outside (hout _ (by decide))]

/-- A byte of REGS after a successful UNPACK, byte by byte (R69, R22 to R30): the view as bytes of unpackDone_readReg. -/
theorem unpackDone_read_regs (n : Nat) (b0 proto : Byte) (flags : Half) (s : State) (a : Nat) :
    Memory.read (unpackDone n b0 proto flags s).regs a =
      if a = 0x01 then some 0x21#8
      else if a = 0x10 then some (lowByte ((versionOf b0).setWidth 16))
      else if a = 0x11 then some (lowByte ((controlOf b0).setWidth 16))
      else if a = 0x12 then some (lowByte ((headerLenOf b0).setWidth 16))
      else if a = 0x13 then some proto
      else if a = 0x14 then some (lowByte flags)
      else if a = 0x15 then some (highByte flags)
      else if a = 0x16 then some 0x04#8
      else if a = 0x17 then some 0x00#8
      else if a = 0x18 then some (lowByte (BitVec.ofNat 16 (4 * (headerLenOf b0).toNat)))
      else if a = 0x19 then some (highByte (BitVec.ofNat 16 (4 * (headerLenOf b0).toNat)))
      else if a = 0x1A then some (lowByte (BitVec.ofNat 16 (headerBytes (headerLenOf b0).toNat)))
      else if a = 0x1B then some (highByte (BitVec.ofNat 16 (headerBytes (headerLenOf b0).toNat)))
      else if a = 0x1C then some (lowByte (BitVec.ofNat 16 (n - headerBytes (headerLenOf b0).toNat)))
      else if a = 0x1D then some (highByte (BitVec.ofNat 16 (n - headerBytes (headerLenOf b0).toNat)))
      else Memory.read s.regs a := by
  have hb := fun r v h => bytes_of_readReg (r := r) (v := v) ((unpackDone_readReg n b0 proto flags s r).trans h)
  by_cases h : a = 0x01 ∨ (0x10 ≤ a ∧ a ≤ 0x1D)
  · rcases h with rfl | ⟨h1, h2⟩
    · exact (hb .status _ rfl).1
    · interval_cases a
      · exact (hb .uVersion _ rfl).1
      · exact (hb .uC _ rfl).1
      · exact (hb .uHlen _ rfl).1
      · simpa [Reg.row] using (hb .uProtocol _ rfl).1
      · exact (hb .uFlags _ rfl).1
      · exact (hb .uFlags _ rfl).2 rfl
      · exact (hb .uExtOff _ rfl).1
      · exact (hb .uExtOff _ rfl).2 rfl
      · exact (hb .uExtLen _ rfl).1
      · exact (hb .uExtLen _ rfl).2 rfl
      · exact (hb .uPayOff _ rfl).1
      · exact (hb .uPayOff _ rfl).2 rfl
      · exact (hb .uPayLen _ rfl).1
      · exact (hb .uPayLen _ rfl).2 rfl
  · rw [unpackDone_read_regs_outside _ _ _ _ _ _ (by omega) (by omega)]
    simp only [show a ≠ 0x01 by omega, show a ≠ 0x10 by omega, show a ≠ 0x11 by omega, show a ≠ 0x12 by omega,
      show a ≠ 0x13 by omega, show a ≠ 0x14 by omega, show a ≠ 0x15 by omega, show a ≠ 0x16 by omega,
      show a ≠ 0x17 by omega, show a ≠ 0x18 by omega, show a ≠ 0x19 by omega, show a ≠ 0x1A by omega,
      show a ≠ 0x1B by omega, show a ≠ 0x1C by omega, show a ≠ 0x1D by omega, if_false]

/-- A byte of REGS after a typed failure (R83, R88): STATUS, the command's poisoned registers, and every other byte as
before. -/
theorem raiseFail_read_regs (c : Command) (f : Failure) (s : State) (a : Nat) :
    Memory.read (raiseFail c f s).regs a =
      if a = 0x01 then some (failureStatus c f)
      else match c with
        | .pack => if 0x0A ≤ a ∧ a ≤ 0x0C then none else Memory.read s.regs a
        | .unpack => if 0x10 ≤ a ∧ a ≤ 0x1D then none else Memory.read s.regs a
        | .noCommand => Memory.read s.regs a := by
  rw [raiseFail_regs, Memory.read_write]
  by_cases h : a = 0x01
  · simp [h]
  · rw [if_neg (Ne.symm h), if_neg h]
    cases c
    · have e : (poisonResults .pack s).regs = (poisonRegs packResultRegs s).regs := rfl
      have hc : (packResultRegs.any fun r => r.covers a) = true ↔ 0x0A ≤ a ∧ a ≤ 0x0C := by
        simp only [packResultRegs, List.any_cons, List.any_nil, Bool.or_false, Bool.or_eq_true, Reg.covers_iff, Reg.row]
        omega
      simp only [e, read_poisonRegs, hc]
    · have e : (poisonResults .unpack s).regs = (poisonRegs unpackResultRegs s).regs := rfl
      have hc : (unpackResultRegs.any fun r => r.covers a) = true ↔ 0x10 ≤ a ∧ a ≤ 0x1D := by
        simp only [unpackResultRegs, List.any_cons, List.any_nil, Bool.or_false, Bool.or_eq_true, Reg.covers_iff, Reg.row]
        omega
      simp only [e, read_poisonRegs, hc]
    · rfl

/-- No command writes IN, and none moves the host or changes BUF_CAP (R50, R68, R75, R87). -/
theorem exec_frame {i : Instr} (h : exec i s = .next t) :
    t.inBuf = s.inBuf ∧ t.bufCap = s.bufCap ∧ t.script = s.script ∧ t.pos = s.pos ∧ t.vars = s.vars := by
  cases i with
  | pack =>
    obtain ⟨n, ver, c, proto, flags, -, -, -, -, -, -, ⟨-, e⟩ | ⟨-, ext, -, -, e⟩⟩ := execPack_cases h <;> simp [e]
  | unpack =>
    obtain ⟨n, -, -, ⟨-, e⟩ | ⟨-, b0, b1, b2, b3, -, -, -, -, ⟨-, e⟩ | ⟨-, -, e⟩ | ⟨-, -, e⟩⟩⟩ :=
      execUnpack_cases h <;> simp [e]
  | illegal op rsv =>
    have h : execIllegal op rsv s = .next t := h
    injection h with h
    simp [← h]

end Sys2Proof.Machine
end

