-- ==== Sys2Proof/Laws/HostAccess.lean ====
section
/-! SUPPORT. The host's accesses and one step of the machine: all that each can answer as a next state. -/

namespace Sys2Proof.Machine

variable {s t : State}

/-- The places a host write stores to: the bytes of the RW registers, and IN (R42). -/
theorem Place.right_rw_iff (p : Place) :
    p.right = some .rw ↔
      (∃ i, p = .reg i ∧ ((2 ≤ i ∧ i ≤ 4) ∨ (6 ≤ i ∧ i ≤ 9))) ∨ (∃ i, p = .inp i) := by
  cases p with
  | reg i =>
    by_cases hi : i < 0x1E
    · have : ∀ j, j < 0x1E →
          (Place.right (.reg j) = some .rw ↔ ((2 ≤ j ∧ j ≤ 4) ∨ (6 ≤ j ∧ j ≤ 9))) := by decide
      simpa using this i hi
    · have h : regAt i = none := by
        simp only [regAt, List.find?_eq_none]
        intro r hr
        rw [Reg.covers_iff]
        cases r <;> simp only [Reg.row] <;> omega
      simp only [Place.right, h, Option.map_none]
      constructor
      · intro hh; exact absurd hh (by simp)
      · rintro (⟨j, hj, h2⟩ | ⟨j, hj⟩)
        · injection hj with hj; omega
        · exact absurd hj (by simp)
  | out i => simp [Place.right]
  | inp i => simp [Place.right]

theorem storeByte_ok {o : Origin} {a : Offset} {v : Byte} :
    storeByte o a v s = .ok t ↔ ∃ p, locate s.bufCap a = some p ∧ p.right = some .rw ∧ t = p.write v s := by
  constructor
  · intro h
    unfold storeByte at h
    split at h
    · exact absurd h (by simp)
    · rename_i p hp
      split at h
      · rename_i hr
        injection h with h
        exact ⟨p, hp, hr, h.symm⟩
      all_goals exact absurd h (by simp)
  · rintro ⟨p, hp, hr, rfl⟩
    simp [storeByte, hp, hr]

theorem readByte_ok {o : Origin} {a : Offset} {v : Byte} (h : readByte o a s = .ok v) : peek s a = some v := by
  unfold readByte at h
  unfold peek
  split at h
  · exact absurd h (by simp)
  · rename_i p hp
    split at h
    · exact absurd h (by simp)
    · exact absurd h (by simp)
    · split at h
      · exact absurd h (by simp)
      · rename_i w hw
        injection h with h
        rw [hw, h]
    · split at h
      · exact absurd h (by simp)
      · rename_i w hw
        injection h with h
        rw [hw, h]

/-- All a next state of a store can be: one RW byte written, or two (R40, R42). -/
theorem memStore_cases {a : Offset} {width : Nat} {v : Half} (h : memStore a width v s = .ok t) :
    (width = 1 ∧ ∃ p, locate s.bufCap a = some p ∧ p.right = some .rw ∧ t = p.write (lowByte v) s) ∨
    (width = 2 ∧ a.toNat % 2 = 0 ∧ ∃ p q, locate s.bufCap a = some p ∧ p.right = some .rw ∧
      locate s.bufCap (a + 1) = some q ∧ q.right = some .rw ∧
      t = q.write (highByte v) (p.write (lowByte v) s)) := by
  unfold memStore at h
  dsimp only at h
  split at h
  · rename_i hw
    exact .inl ⟨hw, storeByte_ok.1 h⟩
  · split at h
    · rename_i hw
      split at h
      · exact absurd h (by simp)
      · rename_i hodd
        split at h
        · exact absurd h (by simp)
        · rename_i s1 h1
          obtain ⟨p, hp, hr, rfl⟩ := storeByte_ok.1 h1
          obtain ⟨q, hq, hr2, rfl⟩ := storeByte_ok.1 h
          have ev : a.toNat % 2 = 0 := by simp [isOdd] at hodd; exact hodd
          exact .inr ⟨hw, ev, p, q, hp, hr, by simpa using hq, hr2, rfl⟩
    · exact absurd h (by simp)

/-- CMD is the one write-only byte (R10). -/
theorem isCommandWrite_iff {a : Offset} {width : Nat} :
    isCommandWrite a width s = true ↔ width = 1 ∧ a = 0 := by
  have hz : a = 0 ↔ a.toNat = 0 := by rw [← BitVec.toNat_inj]; rfl
  rw [hz]
  unfold isCommandWrite
  simp only [Bool.and_eq_true, beq_iff_eq]
  refine and_congr_right (fun _ => ?_)
  unfold locate
  split
  · rename_i hlt
    have : ∀ i, i < 64 → (Place.right (.reg i) = some .wo ↔ i = 0) := by decide
    simpa using this a.toNat hlt
  · rename_i hge
    have h0 : a.toNat ≠ 0 := by unfold regsSize at hge; omega
    split
    · simp [Place.right, h0]
    · split <;> simp [Place.right, h0]

/-- The address space of R36 to R39, offset by offset. -/
theorem locate_eq (cap : Nat) (a : Offset) :
    locate cap a =
      if a.toNat < 0x40 then some (.reg a.toNat)
      else if 0x1000 ≤ a.toNat ∧ a.toNat < 0x1080 then some (.out (a.toNat - 0x1000))
      else if 0x10000 ≤ a.toNat ∧ a.toNat < 0x10000 + cap then some (.inp (a.toNat - 0x10000))
      else none := rfl

/-- What one step can do when it answers a next state: nothing at all, a command, a store of one or two RW bytes, a
read into a host variable, a move of the host, or the RESET event. -/
theorem step_cases (h : step s = .next t) :
    t = s ∨
    (∃ i, exec i (advance s) = .next t) ∨
    (∃ a width v, memStore a width v (advance s) = .ok t) ∨
    (∃ x v, t = setHostVar x v (advance s)) ∨
    (∃ p, t = { s with pos := p }) ∨
    t = applyReset (advance s) := by
  have hjump : ∀ l, jumpTo l s = .next t → ∃ p, t = { s with pos := p } := by
    intro l hl
    unfold jumpTo at hl
    split at hl
    · injection hl with hl; exact ⟨_, hl.symm⟩
    · exact absurd hl (by simp)
  unfold step hostStep at h
  split at h
  · injection h with h; exact .inl h.symm
  · rename_i line _
    unfold runLine at h
    split at h
    · rename_i a width d _
      unfold memWrite at h
      split at h
      · exact .inr (.inl ⟨_, h⟩)
      · split at h
        · rename_i t' ht
          injection h with h
          subst h
          exact .inr (.inr (.inl ⟨_, _, _, ht⟩))
        · exact absurd h (by simp)
    · split at h
      · injection h with h; exact .inr (.inr (.inr (.inl ⟨_, _, h.symm⟩)))
      · exact absurd h (by simp)
    · split at h
      · exact .inr (.inr (.inr (.inr (.inl (hjump _ h)))))
      · injection h with h; exact .inr (.inr (.inr (.inr (.inl ⟨_, h.symm⟩))))
    · exact .inr (.inr (.inr (.inr (.inl (hjump _ h)))))
    · injection h with h; exact .inl h.symm
    · injection h with h; exact .inr (.inr (.inr (.inr (.inr h.symm))))

/-- A store changes no field but REGS and IN. -/
theorem memStore_frame {a : Offset} {width : Nat} {v : Half} (h : memStore a width v s = .ok t) :
    t.out = s.out ∧ t.bufCap = s.bufCap ∧ t.script = s.script ∧ t.pos = s.pos ∧ t.vars = s.vars := by
  have hout : ∀ (p : Place) (w : Byte) (u : State), p.right = some .rw → (p.write w u).out = u.out := by
    intro p w u hp
    rcases (Place.right_rw_iff p).1 hp with ⟨i, rfl, -⟩ | ⟨i, rfl⟩ <;> rfl
  rcases memStore_cases h with ⟨-, p, -, hr, rfl⟩ | ⟨-, -, p, q, -, hr, -, hr2, rfl⟩
  · simp [hout p _ _ hr]
  · simp [hout q _ _ hr2, hout p _ _ hr]

/-- A store leaves every byte of REGS but those of the RW registers as it was (R42). -/
theorem memStore_read_regs {a : Offset} {width : Nat} {v : Half} (h : memStore a width v s = .ok t) {b : Nat}
    (hb : ¬ ((2 ≤ b ∧ b ≤ 4) ∨ (6 ≤ b ∧ b ≤ 9))) : Memory.read t.regs b = Memory.read s.regs b := by
  have hone : ∀ (p : Place) (w : Byte) (u : State), p.right = some .rw →
      Memory.read (p.write w u).regs b = Memory.read u.regs b := by
    intro p w u hp
    rcases (Place.right_rw_iff p).1 hp with ⟨i, rfl, hi⟩ | ⟨i, rfl⟩
    · exact Memory.read_write_ne (by omega) _ _
    · rfl
  rcases memStore_cases h with ⟨-, p, -, hr, rfl⟩ | ⟨-, -, p, q, -, hr, -, hr2, rfl⟩
  · rw [hone p _ _ hr]
  · rw [hone q _ _ hr2, hone p _ _ hr]

/-- One step never changes BUF_CAP or the script. -/
theorem step_keeps_bufCap_script (h : step s = .next t) : t.bufCap = s.bufCap ∧ t.script = s.script := by
  obtain rfl | ⟨i, h⟩ | ⟨a, w, v, h⟩ | ⟨x, v, rfl⟩ | ⟨p, rfl⟩ | rfl := step_cases h
  · exact ⟨rfl, rfl⟩
  · have := exec_frame h; simp_all
  · have := memStore_frame h; simp_all
  · exact ⟨rfl, rfl⟩
  · exact ⟨rfl, rfl⟩
  · exact ⟨rfl, rfl⟩

end Sys2Proof.Machine
end

