-- ==== Sys2Proof/Laws/Canonical.lean ====
section
/-! SUPPORT. The canonical form of the arrays: the state after reset has it, and every operation over them keeps it. -/

namespace Sys2Proof.Machine

variable {s : State}

/-- The memory after reset is in canonical form. -/
theorem reset_wf : Memory.wf State.reset.regs ∧ Memory.wf State.reset.out ∧ Memory.wf State.reset.inBuf ∧
    Memory.wf State.reset.vars := by decide

/-- An entry left by poisoning was there before. -/
theorem Memory.mem_poison {α : Type} {p : Nat → Bool} {m : List (Nat × α)} {c : Nat × α}
    (h : c ∈ Memory.poison p m) : c ∈ m := (List.mem_filter.1 h).1

/-- An entry of a canonical array is what its index reads as. -/
theorem Memory.read_of_mem {α : Type} {m : List (Nat × α)} {c : Nat × α} (hwf : Memory.wf m) (h : c ∈ m) :
    Memory.read m c.1 = some c.2 := by
  induction m with
  | nil => cases h
  | cons d rest ih =>
    obtain ⟨h1, h2⟩ := List.pairwise_cons.1 hwf
    obtain ⟨k, v⟩ := d
    rcases List.mem_cons.1 h with rfl | h'
    · simp [Memory.read]
    · have := h1 c h'
      simp only at this
      simp only [Memory.read, show k ≠ c.1 by omega, if_false]
      exact ih h2 h'

/-- In canonical form, poisoning what is unwritten changes nothing. -/
theorem Memory.poison_of_unwritten {α : Type} {p : Nat → Bool} {m : List (Nat × α)} (hwf : Memory.wf m)
    (h : ∀ a, p a = true → Memory.read m a = none) : Memory.poison p m = m := by
  unfold Memory.poison
  rw [List.filter_eq_self]
  intro c hc
  by_contra hn
  have hr := Memory.read_of_mem hwf hc
  rw [h _ (by simpa using hn)] at hr
  cases hr

theorem wf_poisonRegs (rs : List Reg) (h : Memory.wf s.regs) : Memory.wf (poisonRegs rs s).regs :=
  Memory.wf_poison (fun a => rs.any fun r => r.covers a) h

theorem wf_poisonResults (c : Command) (h : Memory.wf s.regs) : Memory.wf (poisonResults c s).regs := by
  cases c
  · exact wf_poisonRegs packResultRegs h
  · exact wf_poisonRegs unpackResultRegs h
  · exact h

theorem wf_raiseFail (c : Command) (f : Failure) (h : Memory.wf s.regs) : Memory.wf (raiseFail c f s).regs := by
  rw [raiseFail_regs]
  exact Memory.wf_write _ _ (wf_poisonResults c h)

theorem wf_writeOut (bytes : List Byte) (s : State) : Memory.wf (writeOut bytes s).out := Memory.wf_ofBytes 0 bytes

theorem wf_packDone (ver : BitVec 2) (c : BitVec 1) (proto : Byte) (flags : Half) (ext : List Byte)
    (h : Memory.wf s.regs) : Memory.wf (packDone ver c proto flags ext s).regs := by
  unfold packDone
  iterate 3 refine wf_writeReg _ _ ?_
  exact h

theorem wf_unpackDone (n : Nat) (b0 proto : Byte) (flags : Half) (h : Memory.wf s.regs) :
    Memory.wf (unpackDone n b0 proto flags s).regs := by
  unfold unpackDone
  iterate 10 refine wf_writeReg _ _ ?_
  exact h

/-- A host write of a byte keeps the canonical form of each array. -/
theorem wf_place_write (p : Place) (v : Byte) (s : State) :
    (Memory.wf s.regs → Memory.wf (p.write v s).regs) ∧ (Memory.wf s.out → Memory.wf (p.write v s).out) ∧
    (Memory.wf s.inBuf → Memory.wf (p.write v s).inBuf) := by
  cases p
  · exact ⟨Memory.wf_write _ _, id, id⟩
  · exact ⟨id, Memory.wf_write _ _, id⟩
  · exact ⟨id, id, Memory.wf_write _ _⟩

theorem wf_setHostVar (t : HostVar) (v : Half) (h : Memory.wf s.vars) : Memory.wf (setHostVar t v s).vars :=
  Memory.wf_write _ _ h

theorem wf_applyReset (s : State) : Memory.wf (applyReset s).regs ∧ Memory.wf (applyReset s).out ∧
    Memory.wf (applyReset s).inBuf := by simp

/-- In canonical form, writing the value a register holds changes nothing. -/
theorem writeReg_of_bytes {r : Reg} {v : Half} (hwf : Memory.wf s.regs)
    (h0 : Memory.read s.regs r.row.offset = some (lowByte v))
    (h1 : r.row.size = 2 → Memory.read s.regs (r.row.offset + 1) = some (highByte v)) : writeReg r v s = s := by
  unfold writeReg
  rcases r.size_one_or_two with e | e
  · rw [if_pos e, Memory.write_of_read hwf h0]
  · rw [if_neg (by omega), Memory.write_of_read hwf h0, Memory.write_of_read hwf (h1 e)]

end Sys2Proof.Machine
end

