-- ==== Sys2Proof/Laws/Faults.lean ====
section
/-! SUPPORT. The model faults: each operation's fault records the access or command it is part of (R90). -/

namespace Sys2Proof.Machine

variable {i : Instr} {s : State} {f : Fault}

/-- A register operand faults for its command, or what goes on with its value does. -/
theorem needReg_fault_origin {r : Reg} {k : Half → Answer} (h : needReg i r s k = .fault f) :
    f.origin = .command i ∨ ∃ v, k v = .fault f := by
  unfold needReg at h
  split at h
  · injection h with h; subst h; exact .inl rfl
  · exact .inr ⟨_, h⟩

/-- An IN operand faults for its command, or what goes on with its value does. -/
theorem needIn_fault_origin {j : Nat} {k : Byte → Answer} (h : needIn i j s k = .fault f) :
    f.origin = .command i ∨ ∃ b, k b = .fault f := by
  unfold needIn at h
  split at h
  · injection h with h; subst h; exact .inl rfl
  · exact .inr ⟨_, h⟩

theorem needInRange_fault_origin {j n : Nat} {k : List Byte → Answer} (h : needInRange i j n s k = .fault f) :
    f.origin = .command i ∨ ∃ bs, k bs = .fault f := by
  induction n generalizing j k with
  | zero => exact .inr ⟨[], h⟩
  | succ n ih =>
    rcases needIn_fault_origin h with h | ⟨b, h⟩
    · exact .inl h
    · exact (ih h).imp_right fun ⟨bs, h⟩ => ⟨b :: bs, h⟩

theorem needLength_fault_origin {k : Nat → Answer} (h : needLength i s k = .fault f) :
    f.origin = .command i ∨ ∃ n, k n = .fault f := by
  rcases needReg_fault_origin h with h | ⟨n, h⟩
  · exact .inl h
  · split at h
    · injection h with h; subst h; exact .inl rfl
    · exact .inr ⟨_, h⟩

/-- A command's fault records the command. -/
theorem exec_fault_origin (h : exec i s = .fault f) : f.origin = .command i := by
  cases i with
  | pack =>
    have h : execPack s = .fault f := h
    unfold execPack at h
    rcases needLength_fault_origin h with h | ⟨n, h⟩; · exact h
    rcases needReg_fault_origin h with h | ⟨ver, h⟩; · exact h
    rcases needReg_fault_origin h with h | ⟨c, h⟩; · exact h
    rcases needReg_fault_origin h with h | ⟨proto, h⟩; · exact h
    rcases needReg_fault_origin h with h | ⟨flags, h⟩; · exact h
    split at h
    · exact absurd h (by simp)
    · rcases needInRange_fault_origin h with h | ⟨ext, h⟩
      · exact h
      · exact absurd h (by simp)
  | unpack =>
    have h : execUnpack s = .fault f := h
    unfold execUnpack at h
    rcases needLength_fault_origin h with h | ⟨n, h⟩; · exact h
    split at h
    · exact absurd h (by simp)
    · rcases needIn_fault_origin h with h | ⟨b0, h⟩; · exact h
      rcases needIn_fault_origin h with h | ⟨b1, h⟩; · exact h
      rcases needIn_fault_origin h with h | ⟨b2, h⟩; · exact h
      rcases needIn_fault_origin h with h | ⟨b3, h⟩; · exact h
      split at h
      · exact absurd h (by simp)
      · split at h <;> exact absurd h (by simp)
  | illegal op rsv => exact absurd (show execIllegal op rsv s = .fault f from h) (by simp [execIllegal])

/-- A byte read's fault records the access it is part of. -/
theorem readByte_fault_origin {o : Origin} {a : Offset} (h : readByte o a s = .error f) : f.origin = o := by
  unfold readByte at h
  repeat' split at h
  all_goals cases h <;> rfl

/-- A byte store's fault records the access it is part of. -/
theorem storeByte_fault_origin {o : Origin} {a : Offset} {v : Byte} (h : storeByte o a v s = .error f) :
    f.origin = o := by
  unfold storeByte at h
  repeat' split at h
  all_goals cases h <;> rfl

theorem memRead_fault_origin {a : Offset} {w : Nat} (h : memRead a w s = .error f) :
    f.origin = .access .read a w := by
  unfold memRead at h
  dsimp only at h
  split at h
  · split at h
    · rename_i hr
      injection h with h; subst h
      exact readByte_fault_origin hr
    · exact absurd h (by simp)
  · split at h
    · split at h
      · injection h with h; subst h; rfl
      · split at h
        · rename_i hr
          injection h with h; subst h
          exact readByte_fault_origin hr
        · split at h
          · rename_i hr
            injection h with h; subst h
            exact readByte_fault_origin hr
          · exact absurd h (by simp)
    · injection h with h; subst h; rfl

theorem memStore_fault_origin {a : Offset} {w : Nat} {v : Half} (h : memStore a w v s = .error f) :
    f.origin = .access .write a w := by
  unfold memStore at h
  dsimp only at h
  split at h
  · exact storeByte_fault_origin h
  · split at h
    · split at h
      · injection h with h; subst h; rfl
      · split at h
        · rename_i hr
          injection h with h; subst h
          exact storeByte_fault_origin hr
        · exact storeByte_fault_origin h
    · injection h with h; subst h; rfl

end Sys2Proof.Machine
end

