-- ==== Sys2Proof/Laws/HostScript.lean ====
section
/-! SUPPORT. The host's script: where a label and a placed line are found. -/

namespace Sys2Proof.Machine

@[simp] theorem labelPos_nil (l : Label) : labelPos l [] = none := rfl

/-- A label of the first line names position 0; any other is looked for after it. -/
theorem labelPos_cons (l : Label) (line : HostLine) (rest : List HostLine) :
    labelPos l (line :: rest) = if l ∈ line.labels then some 0 else (labelPos l rest).map (· + 1) := rfl

/-- A label is named somewhere exactly when some line bears it. -/
theorem labelPos_isSome (l : Label) (script : List HostLine) :
    (labelPos l script).isSome = true ↔ ∃ line ∈ script, l ∈ line.labels := by
  induction script with
  | nil => simp
  | cons line rest ih =>
    rw [labelPos_cons]
    split
    · simp [*]
    · simp [*]

/-- Lines that bear no label do not change where a label is found but by their number. -/
theorem labelPos_unlabelled (l : Label) (ops : List HostOp) (rest : List HostLine) :
    labelPos l (ops.map (⟨[], ·⟩) ++ rest) = (labelPos l rest).map (· + ops.length) := by
  induction ops with
  | nil => cases h : labelPos l rest <;> simp [h]
  | cons op more ih =>
    rw [List.map_cons, List.cons_append, labelPos_cons, if_neg (by simp), ih]
    cases labelPos l rest <;> simp [Nat.add_assoc]

/-- The placed line stands at its position. -/
theorem placeLine_getElem? (line : HostLine) (n : Nat) (script : List HostLine) :
    (placeLine line n script)[n]? = some line := by
  induction n generalizing script with
  | zero => cases script <;> rfl
  | succ n ih => cases script <;> simp [placeLine, ih]

/-- A line that expands to nothing passes its labels on. -/
theorem assembleFrom_of_empty {op : ScriptOp} (h : expand op = []) (pending ls : List Label)
    (rest : List (List Label × ScriptOp)) :
    assembleFrom pending ((ls, op) :: rest) = assembleFrom (pending ++ ls) rest := by
  simp [assembleFrom, h]

/-- A line that expands to something takes the labels that wait for it. -/
theorem assembleFrom_of_cons {op : ScriptOp} {first : HostOp} {more : List HostOp} (h : expand op = first :: more)
    (pending ls : List Label) (rest : List (List Label × ScriptOp)) :
    assembleFrom pending ((ls, op) :: rest) =
      ⟨pending ++ ls, first⟩ :: (more.map (⟨[], ·⟩) ++ assembleFrom [] rest) := by
  simp [assembleFrom, h]

end Sys2Proof.Machine
end

