-- ==== Sys2Proof/Laws/HostSpace.lean ====
section
/-! SUPPORT. The host space offset by offset: which offsets are RW and RO, what one byte read or byte store does, and a
2-byte access as its two byte accesses. -/

namespace Sys2Proof.Machine

variable {s t : State}

/-- The RW bytes of the map are the offsets of hostWritable. -/
theorem rw_iff_hostWritable {cap : Nat} {a : Offset} :
    (∃ p, locate cap a = some p ∧ p.right = some .rw) ↔ hostWritable cap a := by
  constructor
  · rintro ⟨p, hp, hr⟩
    rw [locate_eq] at hp
    unfold hostWritable
    rcases (Place.right_rw_iff p).1 hr with ⟨i, rfl, hi⟩ | ⟨i, rfl⟩
    · split at hp
      · simp at hp; omega
      · split at hp <;> simp_all
    · split at hp
      · simp at hp
      · split at hp
        · simp at hp
        · split at hp <;> simp at hp; omega
  · intro h
    unfold hostWritable at h
    rw [locate_eq]
    by_cases h1 : a.toNat < 0x40
    · rw [if_pos h1]
      exact ⟨_, rfl, (Place.right_rw_iff _).2 (.inl ⟨_, rfl, by omega⟩)⟩
    · rw [if_neg h1, if_neg (by omega), if_pos (by omega)]
      exact ⟨_, rfl, rfl⟩

/-- The RO bytes of REGS. -/
theorem right_reg_ro_iff : ∀ j, j < 0x40 → (Place.right (.reg j) = some .ro ↔
    (j = 0x01 ∨ (0x0A ≤ j ∧ j ≤ 0x0C) ∨ (0x10 ≤ j ∧ j ≤ 0x1D))) := by decide

/-- The RO bytes of the map are the offsets of hostReadOnly. -/
theorem ro_iff_hostReadOnly {cap : Nat} {a : Offset} :
    (∃ p, locate cap a = some p ∧ p.right = some .ro) ↔ hostReadOnly a := by
  rw [locate_eq]
  unfold hostReadOnly
  by_cases h1 : a.toNat < 0x40
  · rw [if_pos h1]
    have := right_reg_ro_iff a.toNat h1
    simp only [Option.some.injEq, exists_eq_left', this]
    omega
  · rw [if_neg h1]
    by_cases h2 : 0x1000 ≤ a.toNat ∧ a.toNat < 0x1080
    · rw [if_pos h2]; simp [Place.right]; omega
    · rw [if_neg h2]
      by_cases h3 : 0x10000 ≤ a.toNat ∧ a.toNat < 0x10000 + cap
      · rw [if_pos h3]; simp [Place.right]; omega
      · rw [if_neg h3]; simp; omega

/-- A byte read of the host, at every offset (R43). -/
theorem readByte_spec (o : Origin) (a : Offset) (s : State) :
    (hostWritable s.bufCap a ∨ hostReadOnly a →
      readByte o a s = match peek s a with
        | some v => .ok v
        | none => .error (.unwrittenRead o (.hostByte a))) ∧
    (¬ (hostWritable s.bufCap a ∨ hostReadOnly a) → readByte o a s = .error (.accessFault o)) := by
  rw [← rw_iff_hostWritable, ← ro_iff_hostReadOnly (cap := s.bufCap)]
  unfold readByte peek
  cases hl : locate s.bufCap a with
  | none => simp
  | some p =>
    simp only [Option.some.injEq, exists_eq_left']
    cases hr : p.right with
    | none => simp
    | some r => cases r <;> simp <;> cases p.read s <;> rfl

/-- A byte store where the host may not write (R42). -/
theorem storeByte_fault {o : Origin} {a : Offset} {v : Byte} (h : ¬ hostWritable s.bufCap a) :
    storeByte o a v s = .error (.accessFault o) := by
  rw [← rw_iff_hostWritable] at h
  unfold storeByte
  cases hl : locate s.bufCap a with
  | none => rfl
  | some p =>
    cases hr : p.right with
    | none => simp [hr]
    | some r =>
      cases r with
      | rw => exact absurd ⟨p, hl, hr⟩ h
      | ro => simp [hr]
      | wo => simp [hr]

/-- What a host write stores, by the number of the register byte (R15, R16, R42). -/
theorem storedByte_eq (a : Nat) (v : Byte) :
    storedByte a v = if a = 0x02 then (v.extractLsb' 0 2).setWidth 8
      else if a = 0x03 then (v.extractLsb' 0 1).setWidth 8 else v := by
  by_cases h : a < 0x1E
  · have hh : ∀ v : Byte, v &&& 0x03#8 = (v.extractLsb' 0 2).setWidth 8 ∧
        v &&& 0x01#8 = (v.extractLsb' 0 1).setWidth 8 := by decide
    have : ∀ a < 0x1E, (regAt a = some .hVersion ↔ a = 2) ∧ (regAt a = some .hC ↔ a = 3) := by decide
    have := this a h
    unfold storedByte
    split
    · simp_all
    · simp_all
    · rw [if_neg, if_neg] <;> simp_all
  · have : regAt a = none := by
      simp only [regAt, List.find?_eq_none]
      intro r hr
      rw [Reg.covers_iff]
      cases r <;> simp only [Reg.row] <;> omega
    unfold storedByte
    rw [this]
    dsimp only
    rw [if_neg (by omega), if_neg (by omega)]

/-- Two offsets that map to one byte are one offset. -/
theorem locate_inj {cap : Nat} {a b : Offset} {p : Place} (ha : locate cap a = some p) (hb : locate cap b = some p) :
    a = b := by
  apply BitVec.eq_of_toNat_eq
  rw [locate_eq] at ha hb
  repeat' split at ha
  all_goals repeat' split at hb
  all_goals simp only [Option.some.injEq, reduceCtorEq] at ha hb
  all_goals subst ha
  all_goals simp only [Place.reg.injEq, Place.out.injEq, Place.inp.injEq, reduceCtorEq] at hb
  all_goals omega

theorem Place.read_write_ne {p q : Place} (h : q ≠ p) (v : Byte) (s : State) : q.read (p.write v s) = q.read s := by
  cases p <;> cases q <;> first
    | rfl
    | exact Memory.read_write_ne (by intro e; apply h; rw [e]) _ _

/-- All that a byte store does where the host may write (R42). -/
theorem storeByte_spec {o : Origin} {a : Offset} {v : Byte} (h : hostWritable s.bufCap a) :
    ∃ t, storeByte o a v s = .ok t ∧
      peek t a = some (if a.toNat = 0x02 then (v.extractLsb' 0 2).setWidth 8
        else if a.toNat = 0x03 then (v.extractLsb' 0 1).setWidth 8 else v) ∧
      (∀ b, b ≠ a → peek t b = peek s b) ∧ sameHost s t ∧ t.out = s.out := by
  obtain ⟨p, hp, hr⟩ := rw_iff_hostWritable.2 h
  refine ⟨p.write v s, storeByte_ok.2 ⟨p, hp, hr, rfl⟩, ?_, ?_, by simp [sameHost], ?_⟩
  · unfold peek
    simp only [Place.write_bufCap, hp]
    rw [locate_eq] at hp
    rcases (Place.right_rw_iff p).1 hr with ⟨i, rfl, hi⟩ | ⟨i, rfl⟩
    · have hi' : i = a.toNat := by
        split at hp
        · simpa using hp.symm
        · split at hp <;> simp at hp
      subst hi'
      rw [← storedByte_eq]
      exact Memory.read_write_same _ _ _
    · have hge : 0x10000 ≤ a.toNat := by
        repeat' split at hp
        all_goals simp only [Option.some.injEq, reduceCtorEq] at hp
        rename_i h3
        exact h3.1
      rw [if_neg (by omega), if_neg (by omega)]
      exact Memory.read_write_same _ _ _
  · intro b hb
    unfold peek
    simp only [Place.write_bufCap]
    cases hq : locate s.bufCap b with
    | none => rfl
    | some q => exact Place.read_write_ne (fun e => hb (locate_inj (e ▸ hq) hp)) v s
  · rcases (Place.right_rw_iff p).1 hr with ⟨i, rfl, hi⟩ | ⟨i, rfl⟩ <;> rfl

/-- The two byte reads of a 2-byte read at an even offset (R40, R41). -/
theorem memRead_two {a : Offset} (h : a.toNat % 2 = 0) :
    memRead a 2 s = match readByte (.access .read a 2) a s with
      | .error f => .error f
      | .ok lo =>
        match readByte (.access .read a 2) (a + 1) s with
        | .error f => .error f
        | .ok hi => .ok (joinBytes hi lo) := by
  have e : isOdd a = false := by simp [isOdd, h]
  unfold memRead
  dsimp only
  rewrite [if_neg (by decide), if_pos rfl, e, if_neg (by decide)]
  rfl

/-- The two byte stores of a 2-byte write at an even offset (R40, R41). -/
theorem memStore_two {a : Offset} {v : Half} (h : a.toNat % 2 = 0) :
    memStore a 2 v s = match storeByte (.access .write a 2) a (lowByte v) s with
      | .error f => .error f
      | .ok s1 => storeByte (.access .write a 2) (a + 1) (highByte v) s1 := by
  have e : isOdd a = false := by simp [isOdd, h]
  unfold memStore
  dsimp only
  rewrite [if_neg (by decide), if_pos rfl, e, if_neg (by decide)]
  rfl

/-- An even offset and the next do not wrap. -/
theorem toNat_add_one {a : Offset} (h : a.toNat % 2 = 0) : (a + 1).toNat = a.toNat + 1 := by
  have := a.isLt
  rw [BitVec.toNat_add]
  simp
  omega

/-- A host write that performs no command is a store. -/
theorem memWrite_of_store {a : Offset} {w : Nat} {v : Half} (h : ¬ (w = 1 ∧ a = 0)) :
    memWrite a w v s = match memStore a w v s with
      | .ok t => .next t
      | .error f => .fault f := by
  unfold memWrite
  rewrite [if_neg (by rwa [isCommandWrite_iff])]
  cases memStore a w v s <;> rfl

/-- What a host offset holds depends on its own byte alone. -/
theorem peek_congr {a : Offset} (hc : t.bufCap = s.bufCap)
    (h1 : a.toNat < 0x40 → Memory.read t.regs a.toNat = Memory.read s.regs a.toNat)
    (h2 : 0x1000 ≤ a.toNat → a.toNat < 0x1080 →
      Memory.read t.out (a.toNat - 0x1000) = Memory.read s.out (a.toNat - 0x1000))
    (h3 : t.inBuf = s.inBuf) : peek t a = peek s a := by
  unfold peek
  rw [hc, locate_eq]
  by_cases g1 : a.toNat < 0x40
  · rw [if_pos g1]; exact h1 g1
  · by_cases g2 : 0x1000 ≤ a.toNat ∧ a.toNat < 0x1080
    · rw [if_neg g1, if_pos g2]; exact h2 g2.1 g2.2
    · by_cases g3 : 0x10000 ≤ a.toNat ∧ a.toNat < 0x10000 + s.bufCap
      · rw [if_neg g1, if_neg g2, if_pos g3]; simp only [Place.read, h3]
      · rw [if_neg g1, if_neg g2, if_neg g3]

end Sys2Proof.Machine
end

