-- ==== Sys2Proof/Laws/PerInstr.lean ====
section
/-! SUPPORT. Per-instruction statements about the commands as syntax. -/

namespace Sys2Proof.Laws.OneByte

/-- R53: a command is one byte long, whatever its fields, and the decoder takes exactly that byte. -/
def Statement (i : Instr) : Prop :=
  (encode i).length = 1 ∧ ∀ rest : List Byte, ∃ j, decode (encode i ++ rest) = .ok (j, rest) ∧ j.wellFormed = true

theorem decodeByte_wellFormed (v : Byte) : (decodeByte v).wellFormed = true := by revert v; decide

theorem statement_of_encode (i : Instr) : Statement i :=
  ⟨rfl, fun _ => ⟨decodeByte (encodeByte i), rfl, decodeByte_wellFormed _⟩⟩

theorem pack : Statement .pack := statement_of_encode .pack

theorem unpack : Statement .unpack := statement_of_encode .unpack

theorem illegal (op rsv : BitVec 4) : Statement (.illegal op rsv) := statement_of_encode (.illegal op rsv)

end Sys2Proof.Laws.OneByte
end

