-- ==== Sys2Proof/Laws/Results.lean ====
section
/-! SUPPORT. The commands as equations on prepared operands, and what a result or a failure leaves in STATUS and in the
result sets. -/

namespace Sys2Proof.Machine

variable {s : State}

/-- STATUS holds one byte. -/
theorem statusIs_unique {v w : Byte} (h : statusIs s v) (h' : statusIs s w) : v = w := by
  unfold statusIs at h h'
  rw [h] at h'
  exact Option.some.inj h'

theorem raiseFail_statusIs (c : Command) (f : Failure) (s : State) :
    statusIs (raiseFail c f s) (failureStatus c f) := by
  unfold statusIs
  rw [raiseFail_read_regs]
  rfl

theorem packDone_statusIs (ver : BitVec 2) (c : BitVec 1) (proto : Byte) (flags : Half) (ext : List Byte) (s : State) :
    statusIs (packDone ver c proto flags ext s) 0x11#8 := by
  unfold statusIs
  rw [packDone_read_regs]
  rfl

theorem unpackDone_statusIs (n : Nat) (b0 proto : Byte) (flags : Half) (s : State) :
    statusIs (unpackDone n b0 proto flags s) 0x21#8 := by
  unfold statusIs
  rw [unpackDone_read_regs]
  rfl

theorem raiseFail_packPoisoned (f : Failure) (s : State) : packPoisoned (raiseFail .pack f s) := by
  refine ⟨fun j _ => rfl, fun a h1 h2 => ?_⟩
  rw [raiseFail_read_regs, if_neg (by omega)]
  dsimp only
  rw [if_pos ⟨h1, h2⟩]

theorem raiseFail_unpackPoisoned (f : Failure) (s : State) : unpackPoisoned (raiseFail .unpack f s) := by
  intro a h1 h2
  rw [raiseFail_read_regs, if_neg (by omega)]
  dsimp only
  rw [if_pos ⟨h1, h2⟩]

/-- PACK once its registers are read and its length fits BUF_CAP. -/
theorem exec_pack_of_inputs {n ver c proto flags : Half} (h : packInputs s n ver c proto flags)
    (hcap : n.toNat ≤ s.bufCap) :
    exec .pack s =
      if hlenOf n.toNat > maxHlen then .next (raiseFail .pack .extensionTooLarge s)
      else needInRange .pack 0 n.toNat s (fun ext =>
        .next (packDone (ver.extractLsb' 0 2) (c.extractLsb' 0 1) (lowByte proto) flags ext s)) := by
  obtain ⟨h1, h2, h3, h4, h5⟩ := h
  simp only [exec, execPack]
  rw [needLength_of_fits h1 hcap, needReg_of_some h2, needReg_of_some h3, needReg_of_some h4, needReg_of_some h5]

/-- UNPACK of fewer than four bytes. -/
theorem exec_unpack_of_short {n : Half} (h : readReg .inLen s = some n) (hcap : n.toNat ≤ s.bufCap)
    (h4 : n.toNat < 4) : exec .unpack s = .next (raiseFail .unpack .truncatedHeader s) := by
  simp only [exec, execUnpack]
  rw [needLength_of_fits h hcap, if_pos (by unfold hdrFixed; omega)]

/-- UNPACK once the first four bytes are read. -/
theorem exec_unpack_of_header {n : Half} {b0 b1 b2 b3 : Byte} (h : readReg .inLen s = some n)
    (hcap : n.toNat ≤ s.bufCap) (h4 : 4 ≤ n.toNat) (hh : inHeader s b0 b1 b2 b3) :
    exec .unpack s =
      if flagsFromWire b2 b3 ≠ 0 then .next (raiseFail .unpack .unsupportedFlags s)
      else if n.toNat < headerBytes (headerLenOf b0).toNat then .next (raiseFail .unpack .truncatedHeader s)
      else .next (unpackDone n.toNat b0 b1 (flagsFromWire b2 b3) s) := by
  obtain ⟨g0, g1, g2, g3⟩ := hh
  simp only [exec, execUnpack]
  rw [needLength_of_fits h hcap, if_neg (by unfold hdrFixed; omega), needIn_of_some g0, needIn_of_some g1,
    needIn_of_some g2, needIn_of_some g3]

end Sys2Proof.Machine
end

