-- ==== Sys2Proof/Tests/Slice0.lean ====
section
/-! SUPPORT. Tests: the refusals of WellFormed, words written out from the encodings, single steps with results from
95_test_vectors.md, and for each statement with hypotheses a state that meets them. -/

namespace Sys2Proof.Tests

open Sys2Proof.Machine

/-! ### States to test on -/

/-- A block with BUF_CAP = 128, STATUS as after reset, the five RW registers written, these bytes in IN, this script. -/
def block (ver c proto : Byte) (flags n : Half) (bytes : List Byte) (script : List HostLine) : State where
  bufCap := 128
  regs := [(1, 0), (2, ver), (3, c), (4, proto), (6, lowByte flags), (7, highByte flags), (8, lowByte n), (9, highByte n)]
  out := []
  inBuf := Memory.ofBytes 0 bytes
  script := script
  pos := 0
  vars := []

/-- The block with one line to perform. -/
def blockWith (op : HostOp) : State := block 1 1 0x04 0x1234 5 [0xAA, 0xBB, 0xCC, 0xDD, 0xEE] [⟨[], op⟩]

/-- The block that an UNPACK finds: IN_LEN and IN alone. -/
def input (n : Half) (bytes : List Byte) : State := block 0 0 0 0 n bytes []

/-- A block with BUF_CAP = 128 in which nothing is written but STATUS. -/
def fresh (script : List HostLine) : State :=
  { block 0 0 0 0 0 [] script with regs := [(1, 0)] }

/-- The next state, if there is one. -/
def nextOf : Answer → Option State
  | .next t => some t
  | .fault _ => none
  | .refused _ => none

/-- The fault, if there is one. -/
def faultOf : Answer → Option Fault
  | .next _ => none
  | .fault f => some f
  | .refused _ => none

/-- STATUS, OUT_LEN, P_HLEN and OUT of an answer. -/
def packView (a : Answer) : Option (Option Half × Option Half × Option Half × List Byte) :=
  (nextOf a).map fun t => (readReg .status t, readReg .outLen t, readReg .pHlen t, t.out.map Prod.snd)

/-- STATUS and the nine U_ registers of an answer. -/
def unpackView (a : Answer) : Option (Option Half × List (Option Half)) :=
  (nextOf a).map fun t => (readReg .status t, unpackResultRegs.map fun r => readReg r t)

/-! ### WellFormed -/

/-- 0x01 is PACK, so no ILLEGAL has that byte (R54). -/
theorem test_wellFormed_refuses_illegal_of_pack : (Instr.illegal 1 0).wellFormed = false := by decide

/-- 0x02 is UNPACK, so no ILLEGAL has that byte (R54). -/
theorem test_wellFormed_refuses_illegal_of_unpack : (Instr.illegal 2 0).wellFormed = false := by decide

/-- RSV ≠ 0 makes 0x11 and 0x12 illegal (R54). -/
theorem test_wellFormed_accepts_illegal : (Instr.illegal 1 1).wellFormed = true ∧ (Instr.illegal 2 1).wellFormed = true ∧
    (Instr.illegal 0 0).wellFormed = true ∧ Instr.pack.wellFormed = true ∧ Instr.unpack.wellFormed = true := by decide

/-- A jump to a label no line bears (log 10). -/
theorem test_scriptWellFormed_refuses_undefined_label :
    scriptWellFormed [⟨[1], .jmp 2⟩] = false ∧ scriptWellFormed [⟨[], .bne 0 0 7⟩, ⟨[8], .halt⟩] = false := by
  decide

/-- One label on two lines (log 10). -/
theorem test_scriptWellFormed_refuses_doubled_label :
    scriptWellFormed [⟨[1], .halt⟩, ⟨[1], .jmp 1⟩] = false := by decide

/-- One position may bear two labels (log 10). -/
theorem test_scriptWellFormed_accepts_two_labels :
    scriptWellFormed [⟨[1, 2], .jmp 2⟩] = true ∧ labelPos 2 [⟨[1, 2], .jmp 2⟩] = some 0 := by decide

/-- ASSERT's check with its label FAIL defined (R61). -/
theorem test_scriptWellFormed_accepts_assert :
    scriptWellFormed (assemble [([], .assertEq 0x01 0x11), ([], .prim .halt), ([failLabel], .prim .halt)]) = true := by
  decide

/-! ### Decoding, encoding, the script notation -/

/-- R53, R54 bit by bit: RSV = 0000, OP = 0001 is PACK; OP = 0010 is UNPACK. -/
theorem test_decode_pack : decode [0b00000001#8] = .ok (.pack, []) := by decide
theorem test_decode_unpack : decode [0b00000010#8, 0xAA#8] = .ok (.unpack, [0xAA#8]) := by decide

/-- X1 to X4 and X6 of 95_test_vectors.md: bytes that encode no command. -/
theorem test_decode_illegal : decode [0b00000000#8] = .ok (.illegal 0b0000#4 0b0000#4, []) ∧
    decode [0b00000011#8] = .ok (.illegal 0b0011#4 0b0000#4, []) ∧
    decode [0b00010001#8] = .ok (.illegal 0b0001#4 0b0001#4, []) ∧
    decode [0b11111111#8] = .ok (.illegal 0b1111#4 0b1111#4, []) ∧
    decode [0b10000001#8] = .ok (.illegal 0b0001#4 0b1000#4, []) := by decide

theorem test_decode_nothing : decode [] = .error .noByte := by decide

theorem test_encode : encode .pack = [0x01#8] ∧ encode .unpack = [0x02#8] ∧ encode (.illegal 0x1 0x8) = [0x81#8] := by decide

/-- The rows of spec/opcode_table.json as words. -/
theorem test_decodeTableWord : decodeTableWord 8 0x01 = some .pack ∧ decodeTableWord 8 0x02 = some .unpack ∧
    decodeTableWord 8 0x00 = some (.illegal 0 0) := by decide

/-- R61: the expansions of WBUF, COPYOUT and ASSERT. -/
theorem test_expand : expand (.wbuf 3 [0x11, 0x22]) = [.write 0x10003 1 (.imm 0x11), .write 0x10004 1 (.imm 0x22)] ∧
    expand (.copyOut 2) = [.read 0x1000 1 0, .write 0x10000 1 (.var 0), .read 0x1001 1 0, .write 0x10001 1 (.var 0)] ∧
    expand (.assertEq 0x01 0x11) = [.read 0x01 1 0, .bne 0 0x11 0] := by decide

/-- R61: the label of a COPYOUT 0 names the position of the line after it, and at the end of the script a HALT. -/
theorem test_assemble_keeps_labels :
    assemble [([], .prim (.jmp 7)), ([7], .copyOut 0), ([8], .prim (.jmp 8))] = [⟨[], .jmp 7⟩, ⟨[7, 8], .jmp 8⟩] ∧
    assemble [([], .prim (.jmp 7)), ([7], .copyOut 0)] = [⟨[], .jmp 7⟩, ⟨[7], .halt⟩] := by decide

/-! ### The commands (95_test_vectors.md, parts 3, 4, 5) -/

/-- Vector P4: n = 5, padding of 3 bytes. -/
theorem test_pack_pads : packView (exec .pack (block 0 0 0x11 0x0000 5 [0xAA, 0xBB, 0xCC, 0xDD, 0xEE] [])) =
    some (some 0x11, some 12, some 2, [0x02, 0x11, 0x00, 0x00, 0xAA, 0xBB, 0xCC, 0xDD, 0xEE, 0x00, 0x00, 0x00]) := by
  decide

/-- Vectors P2 and P3 in one: version 3, C 1, flags 0x1234 on the wire most significant byte first; and P9: n = 125
poisons the result set. -/
theorem test_pack_fields_and_failure :
    packView (exec .pack (block 3 1 0x11 0x1234 0 [] [])) =
      some (some 0x11, some 4, some 0, [0xE0, 0x11, 0x12, 0x34]) ∧
    packView (exec .pack (block 0 0 0x00 0x0000 125 [] [])) = some (some 0x16, none, none, []) := by decide

/-- Vector U7: n = 4 + 4×hlen exactly; and U9, the largest header, whose extension bytes are not read. -/
theorem test_unpack_fields :
    unpackView (exec .unpack (input 8 [0x01, 0x11, 0x00, 0x00, 0xAA, 0xBB, 0xCC, 0xDD])) =
      some (some 0x21, [some 0, some 0, some 1, some 0x11, some 0, some 4, some 4, some 8, some 0]) ∧
    unpackView (exec .unpack (input 128 [0xFF, 0xFF, 0x00, 0x00])) =
      some (some 0x21, [some 3, some 1, some 31, some 0xFF, some 0, some 4, some 124, some 128, some 0]) := by decide

/-- Vectors U6 (nonzero flags come before the truncated extension), U8 (one byte short) and U1 (no byte of IN read). -/
theorem test_unpack_failures :
    (unpackView (exec .unpack (input 4 [0x01, 0x04, 0x80, 0x00]))).map Prod.fst = some (some 0x24) ∧
    unpackView (exec .unpack (input 7 [0x01, 0x11, 0x00, 0x00, 0xAA, 0xBB, 0xCC])) =
      some (some 0x22, [none, none, none, none, none, none, none, none, none]) ∧
    (unpackView (exec .unpack (input 0 []))).map Prod.fst = some (some 0x22) := by decide

/-- Vectors P11 and U17: the first unwritten byte of IN is the fault. -/
theorem test_commands_fault_on_unwritten_input :
    faultOf (exec .pack (block 0 0 0 0 3 [0x01, 0x02] [])) = some (.unwrittenRead (.command .pack) (.inByte 2)) ∧
    faultOf (exec .unpack (input 4 [0x00, 0x04, 0x00])) = some (.unwrittenRead (.command .unpack) (.inByte 3)) := by decide

/-- Vector X3: CMD 0x11 leaves STATUS = 0x38 and every other register as it was. -/
theorem test_illegal_writes_status :
    (nextOf (exec (.illegal 1 1) (input 5 []))).map (fun t => t.regs) =
      some [(1, 0x38), (2, 0), (3, 0), (4, 0), (6, 0), (7, 0), (8, 5), (9, 0)] := by decide

/-! ### Host accesses (95_test_vectors.md, part 5) and single steps -/

/-- Vectors A1, A2, A3, A4, A5, A6, A11, A15. -/
theorem test_host_access_faults :
    (memRead 0x00 1 (input 0 [])).toOption = none ∧
    faultOf (memWrite 0x01 1 0 (input 0 [])) = some (.accessFault (.access .write 0x01 1)) ∧
    faultOf (memWrite 0x07 2 0x1234 (input 0 [])) = some (.misaligned (.access .write 0x07 2)) ∧
    (memRead 0x05 1 (input 0 [])).toOption = none ∧ (memRead 0x2000 1 (input 0 [])).toOption = none ∧
    faultOf (memWrite 0x1000 1 0 (input 0 [])) = some (.accessFault (.access .write 0x1000 1)) ∧
    (memRead 0x10080 1 (input 0 [])).toOption = none ∧ (memRead 0x08 4 (input 0 [])).toOption = none := by decide

/-- Vector A9: W16 0x08, 0x0102 puts 0x02 at 0x08 and 0x01 at 0x09. -/
theorem test_host_write_little_endian :
    (nextOf (memWrite 0x08 2 0x0102 (fresh []))).map (fun t => t.regs) = some [(1, 0x00), (8, 0x02), (9, 0x01)] := by decide

/-- Vectors A12 and P12: W8 0x02, 0x07 stores 0x03; W8 0x03, 0x02 stores 0x00. -/
theorem test_host_write_field_bits :
    (nextOf (memWrite 0x02 1 0x07 (fresh []))).map (fun t => t.regs) = some [(1, 0x00), (2, 0x03)] ∧
    (nextOf (memWrite 0x03 1 0x02 (fresh []))).map (fun t => t.regs) = some [(1, 0x00), (3, 0x00)] := by decide

/-- Vector A13: PACK right after reset reads IN_LEN first. -/
theorem test_pack_after_reset :
    exec .pack State.reset = .fault (.unwrittenRead (.command .pack) (.reg .inLen)) := rfl

/-- R10: the line that writes 0x01 to CMD performs PACK, and the host stands at its next line. -/
theorem test_step_performs_pack : (nextOf (step (blockWith (w8 0 (.imm 1))))).map (fun t => (t.pos, readReg .status t)) =
    some (1, some 0x11) := by decide

/-- A placed command is what the next step performs. -/
theorem test_withFetchWord : (nextOf (step (State.withFetchWord (fresh []) 8 0xFF))).map (fun t => t.regs) =
    some [(1, 0x38)] := by decide

/-! ### Witnesses: for each statement with hypotheses, states and operands that meet them, a clause's at its boundaries -/

/-- IN laid out from a list is written as far as the list goes. -/
theorem inWritten_of_list (s : State) (l : List Byte) (n : Nat) (h : s.inBuf = Memory.ofBytes 0 l) (hn : n ≤ l.length) :
    inWritten s n := by
  intro j hj
  rw [h, Memory.read_ofBytes_zero]
  exact ⟨_, List.getElem?_eq_getElem (Nat.lt_of_lt_of_le hj hn)⟩

/-- A prepared block: every input register written. -/
theorem packInputs_block (n : Half) (bytes : List Byte) :
    packInputs (block 3 1 0x11 0x1234 n bytes []) n 3 1 0x11 0x1234 := by
  refine ⟨?_, rfl, rfl, rfl, ?_⟩
  · exact readReg_of_bytes rfl rfl rfl |>.trans (by rw [joinBytes_high_low])
  · rfl

theorem test_witness_DecodeOfEncodeIsTheInstruction :
    (Instr.illegal 0xF 0xF).wellFormed = true ∧ (Instr.illegal 0 0).wellFormed = true := by decide

theorem test_witness_EncodeOfDecodeIsTheByte :
    decode (0x81#8 :: [0x55#8]) = .ok (.illegal 1 8, [0x55#8]) := by decide

theorem test_witness_StepRunsTheDecodedCommand :
    currentLine (blockWith (w8 0 (.imm 0x12))) = some ⟨[], w8 0 (.imm 0x12)⟩ ∧
    decode [lowByte (hostData (.imm 0x12) (blockWith (w8 0 (.imm 0x12))))] = .ok (.illegal 2 1, []) ∧
    (Instr.illegal 2 1).wellFormed = true := by decide

/-- A branch taken, a branch not taken, a jump and HALT. -/
theorem test_witness_HostBranchesMoveOnlyTheHost :
    (currentLine (fresh [⟨[4], .bne 0 9 4⟩])).map HostLine.op = some (.bne 0 9 4) ∧
    hostVar 0 (setHostVar 0 9 (fresh [⟨[4], .bne 0 9 4⟩])) = 9 ∧
    hostVar 0 (setHostVar 0 8 (fresh [⟨[4], .bne 0 9 4⟩])) ≠ 9 ∧
    labelPos 4 (fresh [⟨[4], .bne 0 9 4⟩]).script = some 0 ∧
    (currentLine (fresh [⟨[], .jmp 4⟩, ⟨[4], .halt⟩])).map HostLine.op = some (.jmp 4) ∧
    labelPos 4 (fresh [⟨[], .jmp 4⟩, ⟨[4], .halt⟩]).script = some 1 ∧
    (currentLine (fresh [⟨[], .halt⟩])).map HostLine.op = some .halt := by decide

theorem test_witness_NothingWellFormedIsRefused :
    scriptWellFormed (fresh [⟨[4], .bne 0 9 5⟩, ⟨[5], .jmp 4⟩]).script = true := by decide

/-- A step that faults at a read line, at a write line that is no command, and at a command. -/
theorem test_witness_FaultRecordsWhatRaisedIt :
    faultOf (step (blockWith (r8 0 1))) = some (.accessFault (.access .read 0 1)) ∧
    faultOf (step (blockWith (w16 0 (.imm 1)))) = some (.accessFault (.access .write 0 2)) ∧
    faultOf (step (fresh [⟨[], w8 0 (.imm 2)⟩])) = some (.unwrittenRead (.command .unpack) (.reg .inLen)) := by decide

/-- The first and last offset of each of the three regions. -/
theorem test_witness_OffsetsMapToTheThreeArrays :
    (0x3F#32).toNat ≤ 0x3F ∧ (0x1000 ≤ (0x1000#32).toNat ∧ (0x1000#32).toNat ≤ 0x107F) ∧
    (0x1000 ≤ (0x107F#32).toNat ∧ (0x107F#32).toNat ≤ 0x107F) ∧
    (0x10000 ≤ (0x10000#32).toNat ∧ (0x10000#32).toNat < 0x10000 + (fresh []).bufCap) ∧
    (0x10000 ≤ (0x1007F#32).toNat ∧ (0x1007F#32).toNat < 0x10000 + (fresh []).bufCap) := by decide

/-- The edges of the RW and RO offsets, a written byte of them and an unwritten one. -/
theorem test_witness_HostReadsAByteByItsRight :
    (hostWritable 128 0x02 ∧ hostWritable 128 0x09 ∧ hostWritable 128 0x10000 ∧ hostWritable 128 0x1007F) ∧
    (hostReadOnly 0x01 ∧ hostReadOnly 0x0C ∧ hostReadOnly 0x1D ∧ hostReadOnly 0x1000 ∧ hostReadOnly 0x107F) ∧
    (hostWritable 128 0x08 ∧ peek (input 5 []) 0x08 = some 5) ∧ (hostReadOnly 0x0A ∧ peek (input 5 []) 0x0A = none) := by
  unfold hostWritable hostReadOnly
  refine ⟨⟨?_, ?_, ?_, ?_⟩, ⟨?_, ?_, ?_, ?_, ?_⟩, ⟨?_, ?_⟩, ⟨?_, ?_⟩⟩ <;> decide

/-- Offsets just outside the RW and RO ones. -/
theorem test_witness_HostReadsAByteByItsRight_outside :
    ¬ (hostWritable 128 0x00 ∨ hostReadOnly 0x00) ∧ ¬ (hostWritable 128 0x05 ∨ hostReadOnly 0x05) ∧
    ¬ (hostWritable 128 0x1E ∨ hostReadOnly 0x1E) ∧ ¬ (hostWritable 128 0x1080 ∨ hostReadOnly 0x1080) ∧
    ¬ (hostWritable 128 0x10080 ∨ hostReadOnly 0x10080) := by
  unfold hostWritable hostReadOnly
  refine ⟨?_, ?_, ?_, ?_, ?_⟩ <;> decide

theorem test_witness_HostWritesAByteByItsRight :
    hostWritable (fresh []).bufCap 0x02 ∧ hostWritable (fresh []).bufCap 0x1007F ∧
    (0x00#32).toNat = 0 ∧ (nextOf (memWrite 0x00 1 0xFF (fresh []))).isSome = true ∧
    (0x01#32).toNat ≠ 0 ∧ ¬ hostWritable (fresh []).bufCap 0x01 ∧ ¬ hostWritable (fresh []).bufCap 0x0A ∧
    ¬ hostWritable (fresh []).bufCap 0x10080 := by
  unfold hostWritable
  decide

/-- Width 0 and 3, odd offsets (mapped, reserved, unmapped: log 8), and at even offsets: two readable bytes, one that is not, two writable bytes, and the
pairs at 0x04 and 0x0A that are not both writable. -/
theorem test_witness_WideAccessIsTwoByteAccesses :
    ((0 : Nat) ≠ 1 ∧ (0 : Nat) ≠ 2) ∧ ((3 : Nat) ≠ 1 ∧ (3 : Nat) ≠ 2) ∧
    ((0x07#32).toNat % 2 = 1 ∧ (0x05#32).toNat % 2 = 1 ∧ (0x2001#32).toNat % 2 = 1) ∧
    ((0x08#32).toNat % 2 = 0 ∧ (memRead 0x08 1 (input 0x0102 [])).toOption = some 0x02 ∧
      (memRead 0x09 1 (input 0x0102 [])).toOption = some 0x01) ∧
    (memRead 0x00 1 (input 0 [])).toOption = none ∧ (memRead 0x05 1 (input 0 [])).toOption = none ∧
    (hostWritable 128 0x08 ∧ hostWritable 128 (0x08 + 1) ∧
      ((nextOf (memWrite 0x08 1 0x0102 (fresh []))).bind fun t => nextOf (memWrite (0x08 + 1) 1 (0x0102 >>> 8) t)).isSome
        = true) ∧
    ¬ (hostWritable 128 0x04 ∧ hostWritable 128 (0x04 + 1)) ∧ ¬ (hostWritable 128 0x0A ∧ hostWritable 128 (0x0A + 1)) := by
  unfold hostWritable
  decide

theorem test_witness_HostInterfaceIsLittleEndian :
    (nextOf (memWrite 0x08 2 0x0102 (fresh []))).isSome = true ∧ (0x08#32).toNat ≠ 0x02 ∧
    (nextOf (memWrite 0x1007E 2 0x0102 (fresh []))).isSome = true ∧
    (nextOf (memWrite 0x02 2 0xFFFF (fresh []))).isSome = true ∧ (0x02#32).toNat = 0x02 ∧
    (memRead 0x08 2 (input 0x0102 [])).toOption = some 0x0102 ∧ Reg.inLen.row.size = 2 := by decide

theorem test_witness_CmdIsWriteOnly : (nextOf (memWrite 0 1 0x02 (input 0 []))).isSome = true := by decide

theorem test_witness_WriteToCmdPerformsTheCommand :
    lowByte 0x0001 = 0x01#8 ∧ lowByte 0x0002 = 0x02#8 ∧ (lowByte 0x0003 ≠ 0x01#8 ∧ lowByte 0x0003 ≠ 0x02#8) ∧
    (lowByte 0x0011 ≠ 0x01#8 ∧ lowByte 0x0011 ≠ 0x02#8) := by decide

/-- The edges of the reserved offsets, and a command that answers. -/
theorem test_witness_ReservedOffsetsFault :
    (0x05#32).toNat = 0x05 ∧ 0x0D ≤ (0x0D#32).toNat ∧ (0x0F#32).toNat ≤ 0x0F ∧ 0x1E ≤ (0x1E#32).toNat ∧
    (0x3F#32).toNat ≤ 0x3F ∧ (nextOf (exec .unpack (input 0 []))).isSome = true := by decide

theorem test_witness_HostReadChangesNoByte :
    (currentLine (blockWith (r8 0x04 7))).map HostLine.op = some (.read 0x04 1 7) ∧
    (memRead 0x04 1 (blockWith (r8 0x04 7))).toOption = some 0x04 ∧
    (currentLine (blockWith (r8 0x0C 7))).map HostLine.op = some (.read 0x0C 1 7) ∧
    (memRead 0x0C 1 (blockWith (r8 0x0C 7))).toOption = none := by decide

theorem test_witness_ReadAfterWriteGivesTheStoredByte :
    hostWritable (fresh []).bufCap 0x02 ∧ (nextOf (memWrite 0x02 1 0xFF (fresh []))).isSome = true ∧
    hostWritable (fresh []).bufCap 0x03 ∧ (nextOf (memWrite 0x03 1 0xFF (fresh []))).isSome = true ∧
    hostWritable (fresh []).bufCap 0x1007F ∧ (nextOf (memWrite 0x1007F 1 0xFF (fresh []))).isSome = true := by
  unfold hostWritable
  decide

/-- A host write that changes H_PROTOCOL, one of two bytes that changes the last byte of IN, and a reset. -/
theorem test_witness_InputsChangeOnlyByHostWrites :
    hostWritable 128 0x04 ∧ hostWritable 128 0x1007F ∧
    (nextOf (step (blockWith (w8 0x04 (.imm 9))))).map (fun t => peek t 0x04) = some (some 9) ∧
    (nextOf (step (blockWith (w16 0x1007E (.imm 0x0908))))).map (fun t => peek t 0x1007F) = some (some 9) ∧
    (nextOf (step (blockWith .resetEvent))).map (fun t => peek t 0x04) = some none ∧
    peek (blockWith .resetEvent) 0x04 = some 4 := by
  unfold hostWritable
  decide

theorem test_witness_ResultsChangeOnlyByCommands :
    hostReadOnly 0x01 ∧ hostReadOnly 0x1000 ∧
    (nextOf (step (blockWith (w8 0 (.imm 1))))).map (fun t => (peek t 0x01, peek t 0x1000)) = some (some 0x11, some 0x62) ∧
    peek (blockWith (w8 0 (.imm 1))) 0x01 = some 0 ∧ peek (blockWith (w8 0 (.imm 1))) 0x1000 = none := by
  unfold hostReadOnly
  decide

/-- A PACK that changes the first byte of OUT and the last of its own registers, an UNPACK that changes U_PROTOCOL and
the last byte of its set, and a reset. -/
theorem test_witness_ResultSetsChangeOnlyByTheirOwnCommand :
    (packWrites 0x1000 ∧ packWrites 0x0C ∧ unpackWrites 0x13 ∧ unpackWrites 0x1D) ∧
    (nextOf (step (blockWith (w8 0 (.imm 1))))).map (fun t => (peek t 0x1000, peek t 0x0C)) = some (some 0x62, some 2) ∧
    (nextOf (step (block 0 0 0 0 4 [0, 4, 0, 0] [⟨[], w8 0 (.imm 2)⟩]))).map (fun t => (peek t 0x13, peek t 0x1D)) =
      some (some 4, some 0) ∧
    peek (blockWith (w8 0 (.imm 1))) 0x0C = none ∧ peek (block 0 0 0 0 4 [0, 4, 0, 0] [⟨[], w8 0 (.imm 2)⟩]) 0x13 = none := by
  unfold packWrites unpackWrites
  decide

theorem test_witness_RepeatedWriteLeavesTheSameState :
    Memory.wf (input 5 [1, 2]).regs ∧ Memory.wf (input 5 [1, 2]).inBuf ∧ ¬ ((2 : Nat) = 1 ∧ (0x10000 : Offset) = 0) ∧
    (nextOf (memWrite 0x10000 2 0x0102 (input 5 [1, 2]))).isSome = true ∧ ¬ ((1 : Nat) = 1 ∧ (0x02 : Offset) = 0) ∧
    (nextOf (memWrite 0x02 1 0xFF (input 5 [1, 2]))).isSome = true := by decide

/-- PACK with n = 0, 5 and 124, the largest. -/
theorem test_witness_PackBuildsTheWireBytes :
    (∃ s : State, packInputs s 0 3 1 0x11 0x1234 ∧ (0 : Half).toNat ≤ s.bufCap ∧ (0 : Half).toNat ≤ 124 ∧ inWritten s 0) ∧
    (∃ s : State, packInputs s 5 3 1 0x11 0x1234 ∧ (5 : Half).toNat ≤ s.bufCap ∧ (5 : Half).toNat ≤ 124 ∧ inWritten s 5) ∧
    (∃ s : State, packInputs s 124 3 1 0x11 0x1234 ∧ (124 : Half).toNat ≤ s.bufCap ∧ (124 : Half).toNat ≤ 124 ∧
      inWritten s 124) := by
  refine ⟨⟨_, packInputs_block 0 [], by decide, by decide, inWritten_of_list _ [] 0 rfl (by decide)⟩,
    ⟨_, packInputs_block 5 [1, 2, 3, 4, 5], by decide, by decide, inWritten_of_list _ _ 5 rfl (by decide)⟩,
    ⟨_, packInputs_block 124 (List.replicate 124 0x5A), by decide, by decide,
      inWritten_of_list _ _ 124 rfl (by rw [List.length_replicate])⟩⟩

/-- n = 125, just past the largest, with BUF_CAP at its least; n = 128 = BUF_CAP; and commands other than PACK. -/
theorem test_witness_PackFailsOnTooLargeAnExtension :
    (packInputs (block 3 1 0x11 0x1234 125 [] []) 125 3 1 0x11 0x1234 ∧
      (125 : Half).toNat ≤ (block 3 1 0x11 0x1234 125 [] []).bufCap ∧ ((125 : Half).toNat + 3) / 4 > 31) ∧
    ((nextOf (exec .pack (block 3 1 0x11 0x1234 128 [] []))).isSome = true ∧
      readReg .inLen (block 3 1 0x11 0x1234 128 [] []) = some 128) ∧
    (Instr.unpack ≠ .pack ∧ (nextOf (exec .unpack (input 0 []))).isSome = true) := by
  exact ⟨⟨packInputs_block 125 [], by decide, by decide⟩, by decide, by decide⟩

theorem test_witness_PackFailsOnNothingButLength :
    (nextOf (exec .pack (block 3 1 0x11 0x1234 0 [] []))).isSome = true ∧
    readReg .inLen (block 3 1 0x11 0x1234 0 [] []) = some 0 ∧
    (nextOf (exec .pack (block 3 1 0x11 0x1234 125 [] []))).isSome = true ∧
    readReg .inLen (block 3 1 0x11 0x1234 125 [] []) = some 125 := by decide

/-- Also the witness of the other statements whose hypothesis is that a PACK answers. -/
theorem test_witness_PackChangesOnlyItsResults :
    (∃ t, exec .pack (block 3 1 0x11 0x1234 1 [7] []) = .next t) ∧
    (∃ t, exec .pack (block 3 1 0x11 0x1234 125 [] []) = .next t) ∧
    (∀ a : Offset, hostWritable 128 a →
      peek { block 3 1 0x11 0x1234 1 [7] [] with out := [(0, 1)] } a = peek (block 3 1 0x11 0x1234 1 [7] []) a) := by
  refine ⟨⟨_, rfl⟩, ⟨_, rfl⟩, fun a ha => peek_congr rfl (fun _ => rfl) (fun h1 h2 => ?_) rfl⟩
  unfold hostWritable at ha
  omega

/-- Each operand unwritten with all before it written: IN_LEN, IN_LEN past BUF_CAP by one, H_VERSION, H_C, H_PROTOCOL,
H_FLAGS, and the first and the last byte of IN. -/
theorem test_witness_PackFaultsInOrder :
    readReg .inLen (fresh []) = none ∧
    (readReg .inLen (input 129 []) = some 129 ∧ (input 129 []).bufCap < (129 : Half).toNat) ∧
    (readReg .inLen (poisonRegs [.hVersion] (input 128 [])) = some 128 ∧
      (128 : Half).toNat ≤ (poisonRegs [.hVersion] (input 128 [])).bufCap ∧
      readReg .hVersion (poisonRegs [.hVersion] (input 128 [])) = none) ∧
    (readReg .hVersion (poisonRegs [.hC] (input 1 [])) = some 0 ∧ readReg .hC (poisonRegs [.hC] (input 1 [])) = none) ∧
    (readReg .hC (poisonRegs [.hProtocol] (input 1 [])) = some 0 ∧
      readReg .hProtocol (poisonRegs [.hProtocol] (input 1 [])) = none) ∧
    (readReg .hProtocol (poisonRegs [.hFlags] (input 1 [])) = some 0 ∧
      readReg .hFlags (poisonRegs [.hFlags] (input 1 [])) = none) ∧
    (readReg .hFlags (input 3 [8, 9]) = some 0 ∧ (3 : Half).toNat ≤ 124 ∧ 2 < (3 : Half).toNat ∧
      (Memory.read (input 3 [8, 9]).inBuf 0).isSome = true ∧ (Memory.read (input 3 [8, 9]).inBuf 1).isSome = true ∧
      Memory.read (input 3 [8, 9]).inBuf 2 = none) ∧
    (0 < (3 : Half).toNat ∧ Memory.read (input 3 []).inBuf 0 = none) := by decide

/-- The values of R64: 0xFF, 0x00 and 0x42; and a PACK that succeeds, with n = 5. -/
theorem test_witness_HeaderByteZeroIsItsThreeFields :
    headerByte0 3 1 31 = 0xFF#8 ∧ headerByte0 0 0 0 = 0x00#8 ∧ headerByte0 1 0 2 = 0x42#8 ∧
    ∃ t, exec .pack (block 1 1 0xFF 0 5 [1, 2, 3, 4, 5] []) = .next t ∧ statusIs t 0x11#8 ∧
      readReg .inLen (block 1 1 0xFF 0 5 [1, 2, 3, 4, 5] []) = some 5 ∧
      readReg .hVersion (block 1 1 0xFF 0 5 [1, 2, 3, 4, 5] []) = some 1 ∧
      readReg .hC (block 1 1 0xFF 0 5 [1, 2, 3, 4, 5] []) = some 1 :=
  ⟨by decide, by decide, by decide, _, rfl, packDone_statusIs _ _ _ _ _ _, by decide, by decide, by decide⟩

theorem test_witness_HlenIsTheExactCeiling : hlenOf 124 ≤ 31 ∧ hlenOf 0 ≤ 31 ∧ ¬ hlenOf 125 ≤ 31 := by decide

theorem test_witness_ConverterSwapsTheFlagsBytes :
    (nextOf (exec .pack (block 3 1 0x11 0x1234 0 [] []))).map (fun t => Memory.read t.regs 0x01) = some (some 0x11) ∧
    (nextOf (exec .unpack (input 4 [0x00, 0x04, 0x00, 0x00]))).map (fun t => (Memory.read t.regs 0x01, readReg .uFlags t)) =
      some (some 0x21, some 0) := by decide

/-- hlen = 1 with exactly enough bytes; hlen = 31 with n = 128 = BUF_CAP; hlen = 0 with n = 4. -/
theorem test_witness_UnpackReportsFieldsAndViews :
    (readReg .inLen (input 8 [0x01, 0x11, 0, 0]) = some 8 ∧ (8 : Half).toNat ≤ (input 8 [0x01, 0x11, 0, 0]).bufCap ∧
      inHeader (input 8 [0x01, 0x11, 0, 0]) 0x01 0x11 0x00 0x00 ∧
      4 + 4 * ((0x01 : Byte).extractLsb' 0 5).toNat ≤ (8 : Half).toNat) ∧
    (readReg .inLen (input 128 [0xFF, 0xFF, 0, 0]) = some 128 ∧
      (128 : Half).toNat ≤ (input 128 [0xFF, 0xFF, 0, 0]).bufCap ∧
      inHeader (input 128 [0xFF, 0xFF, 0, 0]) 0xFF 0xFF 0x00 0x00 ∧
      4 + 4 * ((0xFF : Byte).extractLsb' 0 5).toNat ≤ (128 : Half).toNat) ∧
    (inHeader (input 4 [0x00, 0x04, 0, 0]) 0x00 0x04 0x00 0x00 ∧
      4 + 4 * ((0x00 : Byte).extractLsb' 0 5).toNat ≤ (4 : Half).toNat) := by
  unfold inHeader
  decide

/-- n = 3; nonzero flags in either byte with n = 4; hlen = 1 with one byte too few. -/
theorem test_witness_UnpackFailuresByCondition :
    (readReg .inLen (input 3 []) = some 3 ∧ (3 : Half).toNat ≤ (input 3 []).bufCap ∧ (3 : Half).toNat < 4) ∧
    (4 ≤ (4 : Half).toNat ∧ inHeader (input 4 [0x01, 0x04, 0x80, 0x00]) 0x01 0x04 0x80 0x00 ∧ (0x80 : Byte) ≠ 0) ∧
    (inHeader (input 4 [0x00, 0x04, 0x00, 0x01]) 0x00 0x04 0x00 0x01 ∧ (0x01 : Byte) ≠ 0) ∧
    (readReg .inLen (input 7 [0x01, 0x11, 0, 0]) = some 7 ∧ 4 ≤ (7 : Half).toNat ∧
      inHeader (input 7 [0x01, 0x11, 0, 0]) 0x01 0x11 0x00 0x00 ∧ (7 : Half).toNat < 4 + 4 * ((0x01 : Byte) &&& 0x1F#8).toNat) := by
  unfold inHeader
  decide

/-- Also the witness of the other statements whose hypothesis is that an UNPACK answers. -/
theorem test_witness_UnpackChangesOnlyItsResults :
    (∃ t, exec .unpack (input 4 [0x00, 0x04, 0, 0]) = .next t) ∧ (∃ t, exec .unpack (input 0 []) = .next t) :=
  ⟨⟨_, rfl⟩, ⟨_, rfl⟩⟩

/-- Two contents of IN that agree in the first four bytes and differ in the fifth; answers and faults. -/
theorem test_witness_UnpackReadsAtMostFourBytes :
    (∀ j, j < 4 → Memory.read (Memory.ofBytes 0 ([0x00, 0x04, 0, 0, 0x45] : List Byte)) j =
      Memory.read (input 5 [0x00, 0x04, 0, 0]).inBuf j) ∧
    (nextOf (exec .unpack (input 5 [0x00, 0x04, 0, 0]))).isSome = true ∧
    (∀ j, j < 4 → Memory.read (Memory.ofBytes 5 ([0x45] : List Byte)) j = Memory.read (input 5 []).inBuf j) ∧
    (faultOf (exec .unpack (input 5 []))).isSome = true := by decide

/-- IN_LEN unwritten; past BUF_CAP by one; the first and the last of the four bytes unwritten, with n = 4 and n = 128. -/
theorem test_witness_UnpackFaultsInOrder :
    readReg .inLen (fresh []) = none ∧
    (readReg .inLen (input 129 []) = some 129 ∧ (input 129 []).bufCap < (129 : Half).toNat) ∧
    (readReg .inLen (input 4 []) = some 4 ∧ (4 : Half).toNat ≤ (input 4 []).bufCap ∧ 4 ≤ (4 : Half).toNat ∧
      Memory.read (input 4 []).inBuf 0 = none) ∧
    (readReg .inLen (input 128 [1, 2, 3]) = some 128 ∧ (128 : Half).toNat ≤ (input 128 [1, 2, 3]).bufCap ∧
      (∀ j, j < 3 → (Memory.read (input 128 [1, 2, 3]).inBuf j).isSome = true) ∧
      Memory.read (input 128 [1, 2, 3]).inBuf 3 = none) := by decide

theorem test_witness_UnpackCarriesVersionAndControl :
    Memory.read (input 4 [0x00, 0x04, 0, 0]).inBuf 0 = some 0x00#8 ∧
    (0xE0 : Byte).extractLsb' 0 5 = (0x00 : Byte).extractLsb' 0 5 ∧
    (nextOf (exec .unpack (input 4 [0x00, 0x04, 0, 0]))).map (fun t => Memory.read t.regs 0x01) = some (some 0x21) := by
  decide

/-- Every command with every outcome that answers: also the witness of the statements over all commands. -/
theorem test_witness_CommandRecordsItsOutcomeInStatus :
    (nextOf (exec .pack (block 3 1 0x11 0x1234 0 [] []))).isSome = true ∧
    (nextOf (exec .pack (block 3 1 0x11 0x1234 125 [] []))).isSome = true ∧
    (nextOf (exec .unpack (input 4 [0x00, 0x04, 0, 0]))).isSome = true ∧
    (nextOf (exec .unpack (input 4 [0x00, 0x04, 0, 1]))).isSome = true ∧
    (nextOf (exec .unpack (input 0 []))).isSome = true ∧
    (nextOf (exec (.illegal 0 0) (fresh []))).isSome = true := by decide

theorem test_witness_TypedFailurePoisonsItsOwnSet :
    (nextOf (exec .pack (block 3 1 0x11 0x1234 125 [] []))).map (fun t => Memory.read t.regs 0x01) = some (some 0x16) ∧
    (nextOf (exec .unpack (input 0 []))).map (fun t => Memory.read t.regs 0x01) = some (some 0x22) := by decide

theorem test_witness_CommandRepeatedChangesNothing :
    Memory.wf (input 4 [0x00, 0x04, 0, 0]).regs ∧ (nextOf (exec .unpack (input 4 [0x00, 0x04, 0, 0]))).isSome = true := by
  decide

/-- Two states that agree in REGS, IN and BUF_CAP and differ in OUT and in the host. -/
theorem test_witness_OutcomeDependsOnRegsAndInAlone :
    { input 0 [] with out := [(0, 1)], pos := 3 }.regs = (input 0 []).regs ∧
    { input 0 [] with out := [(0, 1)], pos := 3 }.inBuf = (input 0 []).inBuf ∧
    { input 0 [] with out := [(0, 1)], pos := 3 }.bufCap = (input 0 []).bufCap ∧
    (nextOf (exec .pack (input 0 []))).isSome = true ∧ (faultOf (exec .pack (input 129 []))).isSome = true := by decide

/-- A failed UNPACK, then a PACK that answers or faults. -/
theorem test_witness_EarlierCommandDoesNotAffectALaterOne :
    (nextOf (exec .unpack (input 0 []))).isSome = true ∧ (nextOf (exec .pack (input 0 []))).isSome = true ∧
    (nextOf (exec .unpack (input 3 []))).isSome = true ∧ (faultOf (exec .pack (input 3 []))).isSome = true := by decide

theorem test_witness_ResetEventUnwritesAllButStatus :
    (currentLine (blockWith .resetEvent)).map HostLine.op = some .resetEvent := by decide

/-- A state after a PACK and an UNPACK that both succeeded. -/
def busy : State :=
  { block 0 0 0x04 0 4 [0x00, 0x04, 0x00, 0x00] [⟨[], w8 0 (.imm 1)⟩] with
    regs := [(0x01, 0x21), (0x02, 0x00), (0x03, 0x00), (0x04, 0x04), (0x06, 0x00), (0x07, 0x00), (0x08, 0x04),
      (0x09, 0x00), (0x0A, 0x04), (0x0B, 0x00), (0x0C, 0x00), (0x10, 0x00), (0x11, 0x00), (0x12, 0x00), (0x13, 0x04),
      (0x14, 0x00), (0x15, 0x00), (0x16, 0x04), (0x17, 0x00), (0x18, 0x00), (0x19, 0x00), (0x1A, 0x04), (0x1B, 0x00),
      (0x1C, 0x00), (0x1D, 0x00)]
    out := [(0, 0x00), (1, 0x04), (2, 0x00), (3, 0x00)] }

theorem busy_packHolds : packHolds busy 0 := by
  refine ⟨by decide, by decide, by decide, ⟨0x00, by decide, by decide⟩, fun j hj => ?_⟩
  have h : ∀ j, j < 128 → ((Memory.read busy.out j).isSome = true ↔ j < 4) := by decide
  rw [← h j hj, Option.isSome_iff_exists]

theorem busy_unpackHolds : unpackHolds busy 4 0 := by
  refine ⟨by decide, by decide, by decide, by decide, ⟨0, by decide, by decide⟩, ⟨0, by decide, by decide⟩, by decide,
    ⟨4, by decide, by decide⟩, by decide, by decide, by decide, by decide, by decide⟩

theorem test_witness_StepKeepsMemoryLegal : busy.memoryLegal ∧ ∃ t, step busy = .next t := by
  refine ⟨?_, _, rfl⟩
  unfold State.memoryLegal
  decide

theorem test_witness_StepKeepsRegistersLegal : busy.registersLegal ∧ ∃ t, step busy = .next t := by
  refine ⟨⟨⟨0x21, by decide, by unfold statusIs; decide⟩, fun v hv => ?_, fun v hv => ?_⟩, _, rfl⟩
  · have e : readReg .hVersion busy = some 0 := by decide
    rw [e] at hv
    obtain rfl := Option.some.inj hv
    decide
  · have e : readReg .hC busy = some 0 := by decide
    rw [e] at hv
    obtain rfl := Option.some.inj hv
    decide

theorem test_witness_StepKeepsPackSetLegal : busy.packSetLegal ∧ ∃ t, step busy = .next t :=
  ⟨.inr ⟨0, busy_packHolds⟩, _, rfl⟩

theorem test_witness_StepKeepsUnpackSetLegal : busy.unpackSetLegal ∧ ∃ t, step busy = .next t :=
  ⟨.inr ⟨4, 0, busy_unpackHolds⟩, _, rfl⟩

theorem test_witness_StepKeepsStatusTellsResults : busy.statusTellsResults ∧ ∃ t, step busy = .next t := by
  have hs : statusIs busy 0x21#8 := by unfold statusIs; decide
  refine ⟨⟨?_, ?_, ?_, fun _ => ⟨4, 0, busy_unpackHolds⟩, ?_, ?_⟩, _, rfl⟩ <;>
    exact fun h => absurd (statusIs_unique hs h) (by decide)

/-- PACK of five bytes with flags 0, then a host that put its twelve bytes and two payload bytes into IN. -/
theorem test_witness_PackThenUnpackGivesTheHeaderBack_zero_flags :
    ∃ t, packInputs (block 0 0 0x11 0 5 [1, 2, 3, 4, 5] []) 5 0 0 0x11 0 ∧
      (5 : Half).toNat ≤ (block 0 0 0x11 0 5 [1, 2, 3, 4, 5] []).bufCap ∧ (5 : Half).toNat ≤ 124 ∧
      inWritten (block 0 0 0x11 0 5 [1, 2, 3, 4, 5] []) 5 ∧
      exec .pack (block 0 0 0x11 0 5 [1, 2, 3, 4, 5] []) = .next t ∧
      (∀ j, j < 12 → Memory.read (input 14 [0x02, 0x11, 0, 0, 1, 2, 3, 4, 5, 0, 0, 0, 0x45, 0x46]).inBuf j =
        Memory.read t.out j) ∧
      (∀ j, j < ([0x45, 0x46] : List Byte).length →
        Memory.read (input 14 [0x02, 0x11, 0, 0, 1, 2, 3, 4, 5, 0, 0, 0, 0x45, 0x46]).inBuf (12 + j) =
          ([0x45, 0x46] : List Byte)[j]?) ∧
      readReg .inLen (input 14 [0x02, 0x11, 0, 0, 1, 2, 3, 4, 5, 0, 0, 0, 0x45, 0x46]) = some 14 ∧
      (14 : Half).toNat = 4 + 4 * (((5 : Half).toNat + 3) / 4) + ([0x45, 0x46] : List Byte).length ∧
      (14 : Half).toNat ≤ (input 14 []).bufCap := by
  refine ⟨_, ⟨rfl, rfl, rfl, rfl, rfl⟩, by decide, by decide, inWritten_of_list _ _ 5 rfl (by decide), rfl,
    ?_, ?_, ?_, ?_, ?_⟩ <;> decide

/-- PACK of no extension, then a host that put its four bytes and one payload byte 0x45 into IN. -/
theorem test_witness_PackThenUnpackGivesTheHeaderBack :
    ∃ t, packInputs (block 3 1 0x11 0x1234 0 [] []) 0 3 1 0x11 0x1234 ∧ inWritten (block 3 1 0x11 0x1234 0 [] []) 0 ∧
      exec .pack (block 3 1 0x11 0x1234 0 [] []) = .next t ∧
      (∀ j, j < 4 → Memory.read (input 5 [0xE0, 0x11, 0x12, 0x34, 0x45]).inBuf j = Memory.read t.out j) ∧
      (∀ j, j < ([0x45] : List Byte).length →
        Memory.read (input 5 [0xE0, 0x11, 0x12, 0x34, 0x45]).inBuf (4 + j) = ([0x45] : List Byte)[j]?) ∧
      readReg .inLen (input 5 [0xE0, 0x11, 0x12, 0x34, 0x45]) = some 5 ∧
      (5 : Half).toNat = 4 + ([0x45] : List Byte).length ∧ (5 : Half).toNat ≤ (input 5 []).bufCap := by
  refine ⟨_, packInputs_block 0 [], inWritten_of_list _ [] 0 rfl (by decide), rfl, ?_, ?_, ?_, ?_, ?_⟩ <;> decide

/-- Lines that write: a register, a byte that may not be written, a command, and a width that is none. -/
theorem test_witness_StepPerformsTheHostWrite :
    (currentLine (blockWith (w16 0x06 (.imm 9)))).map HostLine.op = some (.write 0x06 2 (.imm 9)) ∧
    (currentLine (blockWith (w8 0x01 (.var 3)))).map HostLine.op = some (.write 0x01 1 (.var 3)) ∧
    (currentLine (blockWith (w8 0 (.imm 0x0101)))).map HostLine.op = some (.write 0 1 (.imm 0x0101)) ∧
    (currentLine (blockWith (.write 8 4 (.imm 0)))).map HostLine.op = some (.write 8 4 (.imm 0)) := by decide

/-- A label on the second of three lines, whose expansion is empty, with the first expanding to two lines. -/
theorem test_witness_LabelsNameWhereTheirLinesExpand :
    7 ∈ [7, 9] ∧ (∀ x ∈ [([6], ScriptOp.copyOut 1)], 7 ∉ x.1) ∧
    labelPos 7 (assemble ([([6], .copyOut 1)] ++ ([7, 9], .copyOut 0) :: [([8], .prim .halt)])) = some 2 := by decide

end Sys2Proof.Tests
end

section
/-! PROOF of O50. The memory stays legal: each operation over the state keeps `State.memoryLegal`, and so does the step,
which `step_cases` makes one of these operations. -/

namespace Sys2Proof.Machine

variable {s t : State}

/-- The bytes of every register but CMD are bytes that REGS may hold: none is reserved (10_state.md, register map; R31). -/
theorem Reg.covers_legalByte {r : Reg} {a : Nat} (hr : r ≠ .cmd) (h : r.covers a = true) :
    (0x01 ≤ a ∧ a ≤ 0x04) ∨ (0x06 ≤ a ∧ a ≤ 0x0C) ∨ (0x10 ≤ a ∧ a ≤ 0x1D) := by
  rw [Reg.covers_iff] at h
  cases r with
  | cmd => exact absurd rfl hr
  | _ => simp only [Reg.row] at h; omega

/-- An offset that maps to a byte of IN maps below BUF_CAP (R38). -/
theorem locate_inp_lt {cap i : Nat} {a : Offset} (h : locate cap a = some (.inp i)) : i < cap := by
  rw [locate_eq] at h
  split at h
  · simp at h
  · split at h
    · simp at h
    · split at h
      · simp only [Option.some.injEq, Place.inp.injEq] at h
        omega
      · simp at h

/-! ### The operations of the commands -/

theorem writeReg_keeps_memoryLegal {r : Reg} (hr : r ≠ .cmd) (v : Half) (h : s.memoryLegal) :
    (writeReg r v s).memoryLegal := by
  obtain ⟨⟨hwf, hwfRest⟩, hregs, hrest⟩ := h
  exact ⟨⟨wf_writeReg r v hwf, hwfRest⟩, fun c hc => (mem_writeReg hc).elim (Reg.covers_legalByte hr) (hregs c), hrest⟩

/-- An entry of REGS left by poisoning was there before. -/
theorem mem_poisonRegs {rs : List Reg} {c : Host.Cell} (h : c ∈ (poisonRegs rs s).regs) : c ∈ s.regs :=
  Memory.mem_poison (p := fun a => rs.any fun r => r.covers a) h

theorem poisonRegs_keeps_memoryLegal (rs : List Reg) (h : s.memoryLegal) : (poisonRegs rs s).memoryLegal := by
  obtain ⟨⟨hwf, hwfRest⟩, hregs, hrest⟩ := h
  exact ⟨⟨wf_poisonRegs rs hwf, hwfRest⟩, fun c hc => hregs c (mem_poisonRegs hc), hrest⟩

/-- Whatever OUT held, it holds a legal array once at most OUT_CAP bytes are laid out in it. -/
theorem writeOut_keeps_memoryLegal {bytes : List Byte} (hlen : bytes.length ≤ 128) (h : s.memoryLegal) :
    (writeOut bytes s).memoryLegal := by
  obtain ⟨⟨hwfRegs, -, hwfRest⟩, hregs, -, hrest⟩ := h
  refine ⟨⟨hwfRegs, wf_writeOut bytes s, hwfRest⟩, hregs, fun c hc => ?_, hrest⟩
  have := Memory.mem_ofBytes hc
  omega

theorem poisonResults_keeps_memoryLegal (c : Command) (h : s.memoryLegal) : (poisonResults c s).memoryLegal := by
  cases c with
  | pack => exact writeOut_keeps_memoryLegal (bytes := []) (by simp) (poisonRegs_keeps_memoryLegal packResultRegs h)
  | unpack => exact poisonRegs_keeps_memoryLegal unpackResultRegs h
  | noCommand => exact h

theorem raiseFail_keeps_memoryLegal (c : Command) (f : Failure) (h : s.memoryLegal) : (raiseFail c f s).memoryLegal :=
  writeReg_keeps_memoryLegal (by decide) _ (poisonResults_keeps_memoryLegal c h)

/-- At most 124 extension bytes make at most 4 + 4×31 = OUT_CAP bytes of output (R62, R63). -/
theorem packDone_keeps_memoryLegal (ver : BitVec 2) (c : BitVec 1) (proto : Byte) (flags : Half) {ext : List Byte}
    (hext : ext.length ≤ 124) (h : s.memoryLegal) : (packDone ver c proto flags ext s).memoryLegal := by
  have hlen : (packBytes ver c proto flags ext).length ≤ 128 := by
    rw [packBytes_length, headerBytes, hdrFixed, hlenOf]
    omega
  unfold packDone
  iterate 3 refine writeReg_keeps_memoryLegal (by decide) _ ?_
  exact writeOut_keeps_memoryLegal hlen h

theorem unpackDone_keeps_memoryLegal (n : Nat) (b0 proto : Byte) (flags : Half) (h : s.memoryLegal) :
    (unpackDone n b0 proto flags s).memoryLegal := by
  unfold unpackDone
  iterate 10 refine writeReg_keeps_memoryLegal (by decide) _ ?_
  exact h

/-- Every command keeps the memory legal, whether it succeeds or fails. -/
theorem exec_keeps_memoryLegal {i : Instr} (h : s.memoryLegal) (he : exec i s = .next t) : t.memoryLegal := by
  cases i with
  | pack =>
    obtain ⟨n, ver, c, proto, flags, -, -, -, -, -, -, ⟨-, rfl⟩ | ⟨hn, ext, hl, -, rfl⟩⟩ := execPack_cases he
    · exact raiseFail_keeps_memoryLegal _ _ h
    · exact packDone_keeps_memoryLegal _ _ _ _ (by omega) h
  | unpack =>
    obtain ⟨n, -, -, ⟨-, rfl⟩ | ⟨-, b0, b1, b2, b3, -, -, -, -, ⟨-, rfl⟩ | ⟨-, -, rfl⟩ | ⟨-, -, rfl⟩⟩⟩ :=
      execUnpack_cases he
    · exact raiseFail_keeps_memoryLegal _ _ h
    · exact raiseFail_keeps_memoryLegal _ _ h
    · exact raiseFail_keeps_memoryLegal _ _ h
    · exact unpackDone_keeps_memoryLegal _ _ _ _ h
  | illegal op rsv =>
    obtain rfl : raiseFail .noCommand .illegalCommand s = t := Host.Outcome.next.inj he
    exact raiseFail_keeps_memoryLegal _ _ h

/-! ### The operations of the host -/

/-- A host write of one byte stores in an RW register or in IN below BUF_CAP (R38, R42). -/
theorem Place.write_keeps_memoryLegal {p : Place} {a : Offset} (v : Byte) (hp : locate s.bufCap a = some p)
    (hr : p.right = some .rw) (h : s.memoryLegal) : (p.write v s).memoryLegal := by
  obtain ⟨⟨hwfRegs, hwfOut, hwfIn, hwfVars⟩, hregs, hout, hin, hcap⟩ := h
  rcases (Place.right_rw_iff p).1 hr with ⟨i, rfl, hi⟩ | ⟨i, rfl⟩
  · refine ⟨⟨Memory.wf_write _ _ hwfRegs, hwfOut, hwfIn, hwfVars⟩, fun c hc => ?_, hout, hin, hcap⟩
    rcases Memory.mem_write hc with rfl | hc
    · dsimp only; omega
    · exact hregs c hc
  · refine ⟨⟨hwfRegs, hwfOut, Memory.wf_write _ _ hwfIn, hwfVars⟩, hregs, hout, fun c hc => ?_, hcap⟩
    rcases Memory.mem_write hc with rfl | hc
    · exact locate_inp_lt hp
    · exact hin c hc

theorem memStore_keeps_memoryLegal {a : Offset} {width : Nat} {v : Half} (h : s.memoryLegal)
    (hs : memStore a width v s = .ok t) : t.memoryLegal := by
  rcases memStore_cases hs with ⟨-, p, hp, hr, rfl⟩ | ⟨-, -, p, q, hp, hr, hq, hr2, rfl⟩
  · exact Place.write_keeps_memoryLegal _ hp hr h
  · exact Place.write_keeps_memoryLegal _ (by simpa using hq) hr2 (Place.write_keeps_memoryLegal _ hp hr h)

theorem setHostVar_keeps_memoryLegal (x : HostVar) (v : Half) (h : s.memoryLegal) : (setHostVar x v s).memoryLegal := by
  obtain ⟨⟨hwfRegs, hwfOut, hwfIn, hwfVars⟩, hrest⟩ := h
  exact ⟨⟨hwfRegs, hwfOut, hwfIn, wf_setHostVar x v hwfVars⟩, hrest⟩

/-- After the RESET event only STATUS is written (R96), whatever the memory held. -/
theorem applyReset_keeps_memoryLegal (h : s.memoryLegal) : (applyReset s).memoryLegal := by
  obtain ⟨⟨-, -, -, hwfVars⟩, -, -, -, hcap⟩ := h
  obtain ⟨hwfRegs, hwfOut, hwfIn⟩ := wf_applyReset s
  exact ⟨⟨hwfRegs, hwfOut, hwfIn, hwfVars⟩, by simp, by simp, by simp, hcap⟩

/-- The host's position is no part of the memory. -/
theorem memoryLegal_with_pos (p : Nat) : State.memoryLegal { s with pos := p } ↔ s.memoryLegal := Iff.rfl

theorem memoryLegal_advance : (advance s).memoryLegal ↔ s.memoryLegal := memoryLegal_with_pos (s.pos + 1)

/-- Settles O50, by the cases of what a step can do. -/
theorem stepKeepsMemoryLegal : Obligations.StepKeepsMemoryLegal := by
  intro s t h hstep
  have hadv := memoryLegal_advance.2 h
  obtain rfl | ⟨i, he⟩ | ⟨a, width, v, hs⟩ | ⟨x, v, rfl⟩ | ⟨p, rfl⟩ | rfl := step_cases hstep
  · exact h
  · exact exec_keeps_memoryLegal hadv he
  · exact memStore_keeps_memoryLegal hadv hs
  · exact setHostVar_keeps_memoryLegal x v hadv
  · exact (memoryLegal_with_pos p).2 h
  · exact applyReset_keeps_memoryLegal hadv

end Sys2Proof.Machine
end

section
/-! SUPPORT for the statements about the results: what a command leaves unchanged, with what STATUS and result set it
ends, and that a step changes no result but by a command or by the RESET event. -/

namespace Sys2Proof.Machine

variable {s t : State}

/-! ### What a command leaves unchanged -/

theorem exec_illegal_next {op rsv : BitVec 4} :
    exec (.illegal op rsv) s = .next t ↔ t = raiseFail .noCommand .illegalCommand s :=
  ⟨fun h => (Host.Outcome.next.inj h).symm, fun h => h ▸ rfl⟩

/-- A command changes no byte of REGS but STATUS and the registers of its own result set (R68, R75, R87, R88). -/
theorem exec_read_regs {i : Instr} {a : Nat} (h : exec i s = .next t) (hstatus : a ≠ 0x01)
    (hpack : i = .pack → ¬ (0x0A ≤ a ∧ a ≤ 0x0C)) (hunpack : i = .unpack → ¬ (0x10 ≤ a ∧ a ≤ 0x1D)) :
    Memory.read t.regs a = Memory.read s.regs a := by
  cases i with
  | pack =>
    have hpack := hpack rfl
    obtain ⟨n, ver, c, proto, flags, -, -, -, -, -, -, ⟨-, rfl⟩ | ⟨-, ext, -, -, rfl⟩⟩ := execPack_cases h
    · simp [raiseFail_read_regs, hstatus, hpack]
    · rw [packDone_read_regs, if_neg hstatus, if_neg (by omega), if_neg (by omega), if_neg (by omega)]
  | unpack =>
    have hunpack := hunpack rfl
    have hfail : ∀ f, Memory.read (raiseFail .unpack f s).regs a = Memory.read s.regs a := by
      intro f
      simp [raiseFail_read_regs, hstatus, hunpack]
    obtain ⟨n, -, -, ⟨-, rfl⟩ | ⟨-, b0, b1, b2, b3, -, -, -, -, ⟨-, rfl⟩ | ⟨-, -, rfl⟩ | ⟨-, -, rfl⟩⟩⟩ :=
      execUnpack_cases h
    · exact hfail _
    · exact hfail _
    · exact hfail _
    · exact unpackDone_read_regs_outside _ _ _ _ _ _ hstatus hunpack
  | illegal op rsv =>
    obtain rfl := exec_illegal_next.1 h
    simp [raiseFail_read_regs, hstatus]

/-- Only PACK writes OUT (R34, R75, R87). -/
theorem exec_out {i : Instr} (h : exec i s = .next t) (hi : i ≠ .pack) : t.out = s.out := by
  cases i with
  | pack => exact absurd rfl hi
  | unpack =>
    obtain ⟨n, -, -, ⟨-, rfl⟩ | ⟨-, b0, b1, b2, b3, -, -, -, -, ⟨-, rfl⟩ | ⟨-, -, rfl⟩ | ⟨-, -, rfl⟩⟩⟩ :=
      execUnpack_cases h <;> simp
  | illegal op rsv =>
    obtain rfl := exec_illegal_next.1 h
    rfl

/-- A command changes no byte of the host space but STATUS and its own result set. -/
theorem exec_peek {i : Instr} {a : Offset} (h : exec i s = .next t) (hstatus : a.toNat ≠ 0x01)
    (hpack : i = .pack → ¬ packWrites a) (hunpack : i = .unpack → ¬ unpackWrites a) : peek t a = peek s a := by
  obtain ⟨hin, hcap, -⟩ := exec_frame h
  refine peek_congr hcap (fun _ => exec_read_regs h hstatus ?_ ?_) (fun h1 h2 => ?_) hin
  · exact fun hi hr => hpack hi (.inr (.inl hr))
  · exact fun hi hr => hunpack hi (.inr hr)
  · rw [exec_out h fun hi => hpack hi (.inr (.inr ⟨h1, by omega⟩))]

/-! ### With what STATUS and result set a command ends -/

/-- The PACK result set after a success (R20, R21, R62, R67). -/
theorem packDone_packHolds (ver : BitVec 2) (c : BitVec 1) (proto : Byte) (flags : Half) {ext : List Byte}
    (hext : ext.length ≤ 124) (s : State) :
    packHolds (packDone ver c proto flags ext s) (hlenOf ext.length) := by
  have hle : hlenOf ext.length ≤ 31 := (hlenOf_le_iff _).2 hext
  have hsmall : (BitVec.ofNat 16 (hlenOf ext.length)).toNat < 256 := by rw [BitVec.toNat_ofNat]; omega
  refine ⟨hle, ?_, ?_, ⟨headerByte0 ver c (BitVec.ofNat 5 (hlenOf ext.length)), ?_, ?_⟩, fun j _ => ?_⟩
  · simp [packDone, readReg_writeReg, Reg.cut_small _ hsmall]
  · simp [packDone, readReg_writeReg, Reg.cut_wide (r := .outLen) rfl, headerBytes, hdrFixed]
  · rw [packDone_out, Memory.read_ofBytes_zero]
    rfl
  · rw [headerLenOf_headerByte0, BitVec.toNat_ofNat]
    omega
  · rw [packDone_out, Memory.read_ofBytes_zero, ← Option.isSome_iff_exists, isSome_getElem?, packBytes_length]
    rfl

/-- PACK ends with its typed failure and a poisoned set, or with a result (R62, R88). -/
theorem exec_pack_outcome (h : exec .pack s = .next t) :
    (statusIs t 0x16#8 ∧ packPoisoned t) ∨ (statusIs t 0x11#8 ∧ ∃ k, packHolds t k) := by
  obtain ⟨n, ver, c, proto, flags, -, -, -, -, -, -, ⟨-, rfl⟩ | ⟨hn, ext, hl, -, rfl⟩⟩ := execPack_cases h
  · exact .inl ⟨raiseFail_statusIs .pack .extensionTooLarge s, raiseFail_packPoisoned _ _⟩
  · exact .inr ⟨packDone_statusIs .., _, packDone_packHolds _ _ _ _ (by omega) _⟩

/-- The UNPACK result set after a success, whose flags are zero (R22 to R30, R69, R72). -/
theorem unpackDone_unpackHolds {n : Nat} {b0 : Byte} (proto : Byte) (hcap : n ≤ s.bufCap) (hn : n < 65536)
    (hlen : 4 + 4 * (headerLenOf b0).toNat ≤ n) :
    unpackHolds (unpackDone n b0 proto 0 s) n (headerLenOf b0).toNat := by
  have hh : (headerLenOf b0).toNat < 2 ^ 5 := (headerLenOf b0).isLt
  have hv : (versionOf b0).toNat < 2 ^ 2 := (versionOf b0).isLt
  have hc : (controlOf b0).toNat < 2 ^ 1 := (controlOf b0).isLt
  have hp : proto.toNat < 2 ^ 8 := proto.isLt
  simp only [unpackHolds, unpackDone_readReg, unpackDone_bufCap, headerBytes, hdrFixed, Option.some.injEq,
    exists_eq_left', BitVec.ofNat_toNat, and_true, true_and]
  refine ⟨by omega, hlen, hcap, hn, ?_, ?_, ?_⟩
  · simp; omega
  · simp; omega
  · simp [joinBytes_toNat]; omega

/-- UNPACK ends with one of its typed failures and a poisoned set, or with a result (R69, R70, R88). -/
theorem exec_unpack_outcome (h : exec .unpack s = .next t) :
    ((statusIs t 0x22#8 ∨ statusIs t 0x24#8) ∧ unpackPoisoned t) ∨ (statusIs t 0x21#8 ∧ ∃ n k, unpackHolds t n k) := by
  have hshort : statusIs (raiseFail .unpack .truncatedHeader s) 0x22#8 := raiseFail_statusIs ..
  have hflags : statusIs (raiseFail .unpack .unsupportedFlags s) 0x24#8 := raiseFail_statusIs ..
  obtain ⟨n, -, hcap, ⟨-, rfl⟩ | ⟨-, b0, b1, b2, b3, -, -, -, -, ⟨-, rfl⟩ | ⟨-, -, rfl⟩ | ⟨hz, hlen, rfl⟩⟩⟩ :=
    execUnpack_cases h
  · exact .inl ⟨.inl hshort, raiseFail_unpackPoisoned _ _⟩
  · exact .inl ⟨.inr hflags, raiseFail_unpackPoisoned _ _⟩
  · exact .inl ⟨.inl hshort, raiseFail_unpackPoisoned _ _⟩
  · rw [hz]
    exact .inr ⟨unpackDone_statusIs .., _, _, unpackDone_unpackHolds _ hcap n.isLt hlen⟩

theorem exec_illegal_outcome {op rsv : BitVec 4} (h : exec (.illegal op rsv) s = .next t) : statusIs t 0x38#8 :=
  exec_illegal_next.1 h ▸ raiseFail_statusIs .noCommand .illegalCommand s

/-! ### A step changes no result but by a command or by the RESET event -/

/-- STATUS, both result sets, the reserved bytes and BUF_CAP agree; the host-written registers, IN and the host may
differ. -/
def sameResults (s t : State) : Prop :=
  t.bufCap = s.bufCap ∧ t.out = s.out ∧
  ∀ b, ¬ ((2 ≤ b ∧ b ≤ 4) ∨ (6 ≤ b ∧ b ≤ 9)) → Memory.read t.regs b = Memory.read s.regs b

theorem sameResults_refl (s : State) : sameResults s s := ⟨rfl, rfl, fun _ _ => rfl⟩

theorem memStore_sameResults {a : Offset} {width : Nat} {v : Half} (h : memStore a width v s = .ok t) :
    sameResults s t :=
  have ⟨hout, hcap, _⟩ := memStore_frame h
  ⟨hcap, hout, fun _ hb => memStore_read_regs h hb⟩

theorem jumpTo_sameResults {l : Label} (h : jumpTo l s = .next t) : sameResults s t := by
  unfold jumpTo at h
  split at h
  · obtain rfl := Host.Outcome.next.inj h
    exact sameResults_refl s
  · cases h

/-- A line keeps every result, or is the RESET event, or performs the command that its byte decodes to. -/
theorem runLine_results {op : HostOp} (h : runLine op s = .next t) :
    sameResults s t ∨ (op = .resetEvent ∧ t = applyReset (advance s)) ∨
    (∃ d, op = .write 0 1 d ∧ exec (decodeByte (lowByte (hostData d s))) (advance s) = .next t) := by
  cases op with
  | write a width d =>
    have h : memWrite a width (hostData d s) (advance s) = .next t := h
    by_cases hcmd : width = 1 ∧ a = 0
    · refine .inr (.inr ⟨d, by rw [hcmd.1, hcmd.2], ?_⟩)
      rwa [memWrite, if_pos (isCommandWrite_iff.2 hcmd)] at h
    · rw [memWrite_of_store hcmd] at h
      split at h
      · rename_i u hu
        obtain rfl := Host.Outcome.next.inj h
        exact .inl (memStore_sameResults (s := advance s) hu)
      · cases h
  | read a width x =>
    unfold runLine at h
    dsimp only at h
    split at h
    · obtain rfl := Host.Outcome.next.inj h
      exact .inl (sameResults_refl s)
    · cases h
  | bne x v l =>
    unfold runLine at h
    dsimp only at h
    split at h
    · exact .inl (jumpTo_sameResults h)
    · obtain rfl := Host.Outcome.next.inj h
      exact .inl (sameResults_refl s)
  | jmp l => exact .inl (jumpTo_sameResults h)
  | halt =>
    obtain rfl := Host.Outcome.next.inj h
    exact .inl (sameResults_refl s)
  | resetEvent => exact .inr (.inl ⟨rfl, (Host.Outcome.next.inj h).symm⟩)

/-- A step keeps every result, or its line is the RESET event or a 1-byte write to CMD (R34, R37, R96). -/
theorem step_results (h : step s = .next t) :
    sameResults s t ∨ ∃ line, currentLine s = some line ∧
      ((line.op = .resetEvent ∧ t = applyReset (advance s)) ∨
       (∃ d, line.op = .write 0 1 d ∧ exec (decodeByte (lowByte (hostData d s))) (advance s) = .next t)) := by
  unfold step hostStep at h
  split at h
  · obtain rfl := Host.Outcome.next.inj h
    exact .inl (sameResults_refl s)
  · rename_i line hline
    exact (runLine_results h).imp_right fun h => ⟨line, hline, h⟩

end Sys2Proof.Machine
end

section
/-! PROOF of O52, O53 and O54. Each result set is one whole result or nothing, and STATUS tells which: a step keeps the
bytes that this is about, or performs a command with a known outcome, or is the RESET event (`step_results`). -/

namespace Sys2Proof.Machine

variable {s t : State}

/-! ### A result set depends on its own bytes alone -/

/-- The PACK result set agrees: OUT, OUT_LEN, P_HLEN (R34). -/
def samePackSet (s t : State) : Prop :=
  t.out = s.out ∧ ∀ a, 0x0A ≤ a → a ≤ 0x0C → Memory.read t.regs a = Memory.read s.regs a

/-- The UNPACK result set agrees, the nine U_ registers (R34), and BUF_CAP, within which its views lie. -/
def sameUnpackSet (s t : State) : Prop :=
  t.bufCap = s.bufCap ∧ ∀ a, 0x10 ≤ a → a ≤ 0x1D → Memory.read t.regs a = Memory.read s.regs a

theorem sameResults.packSet (h : sameResults s t) : samePackSet s t :=
  have ⟨_, hout, hregs⟩ := h
  ⟨hout, fun a _ _ => hregs a (by omega)⟩

theorem sameResults.unpackSet (h : sameResults s t) : sameUnpackSet s t :=
  have ⟨hcap, _, hregs⟩ := h
  ⟨hcap, fun a _ _ => hregs a (by omega)⟩

theorem sameResults.statusIs_iff (h : sameResults s t) (v : Byte) : statusIs t v ↔ statusIs s v := by
  obtain ⟨-, -, hregs⟩ := h
  rw [statusIs, hregs 0x01 (by omega), statusIs]

theorem exec_samePackSet {i : Instr} (h : exec i s = .next t) (hi : i ≠ .pack) : samePackSet s t :=
  ⟨exec_out h hi, fun a _ _ => exec_read_regs h (by omega) (fun e => absurd e hi) (fun _ => by omega)⟩

theorem exec_sameUnpackSet {i : Instr} (h : exec i s = .next t) (hi : i ≠ .unpack) : sameUnpackSet s t :=
  have ⟨_, hcap, _⟩ := exec_frame h
  ⟨hcap, fun a _ _ => exec_read_regs h (by omega) (fun _ => by omega) (fun e => absurd e hi)⟩

theorem samePackSet.packPoisoned (h : samePackSet s t) (hp : packPoisoned s) : packPoisoned t := by
  obtain ⟨hout, hregs⟩ := h
  obtain ⟨hpout, hpregs⟩ := hp
  exact ⟨fun j hj => by rw [hout, hpout j hj], fun a h1 h2 => by rw [hregs a h1 h2, hpregs a h1 h2]⟩

theorem samePackSet.packHolds {k : Nat} (h : samePackSet s t) (hp : packHolds s k) : packHolds t k := by
  obtain ⟨hout, hregs⟩ := h
  have hreg : ∀ r ∈ packResultRegs, readReg r t = readReg r s := by
    intro r hr
    refine readReg_congr r fun a ha => ?_
    rw [Reg.covers_iff] at ha
    simp only [packResultRegs, List.mem_cons, List.not_mem_nil, or_false] at hr
    rcases hr with rfl | rfl <;> exact hregs a (by simp only [Reg.row] at ha; omega) (by simp only [Reg.row] at ha; omega)
  unfold Machine.packHolds
  rwa [hout, hreg .pHlen (by decide), hreg .outLen (by decide)]

theorem sameUnpackSet.unpackPoisoned (h : sameUnpackSet s t) (hp : unpackPoisoned s) : unpackPoisoned t :=
  fun a h1 h2 => (h.2 a h1 h2).trans (hp a h1 h2)

/-- The bytes of the nine U_ registers are 0x10 to 0x1D (10_state.md, register map). -/
theorem Reg.covers_unpackResult {r : Reg} {a : Nat} (hr : r ∈ unpackResultRegs) (h : r.covers a = true) :
    0x10 ≤ a ∧ a ≤ 0x1D := by
  rw [Reg.covers_iff] at h
  simp only [unpackResultRegs, List.mem_cons, List.not_mem_nil, or_false] at hr
  rcases hr with rfl | rfl | rfl | rfl | rfl | rfl | rfl | rfl | rfl <;> simp only [Reg.row] at h <;> omega

theorem sameUnpackSet.unpackHolds {n k : Nat} (h : sameUnpackSet s t) (hp : unpackHolds s n k) : unpackHolds t n k := by
  obtain ⟨hcap, hregs⟩ := h
  have hreg : ∀ r ∈ unpackResultRegs, readReg r t = readReg r s := fun r hr =>
    readReg_congr r fun a ha => have ⟨h1, h2⟩ := Reg.covers_unpackResult hr ha; hregs a h1 h2
  unfold Machine.unpackHolds
  rwa [hcap, hreg .uVersion (by decide), hreg .uC (by decide), hreg .uHlen (by decide), hreg .uProtocol (by decide),
    hreg .uFlags (by decide), hreg .uExtOff (by decide), hreg .uExtLen (by decide), hreg .uPayOff (by decide),
    hreg .uPayLen (by decide)]

/-! ### The RESET event unwrites both sets -/

theorem applyReset_packPoisoned (s : State) : packPoisoned (applyReset s) := by
  refine ⟨fun j _ => rfl, fun a h1 _ => ?_⟩
  rw [applyReset_regs, Memory.read, if_neg (by omega), Memory.read_nil]

theorem applyReset_unpackPoisoned (s : State) : unpackPoisoned (applyReset s) := by
  intro a h1 _
  rw [applyReset_regs, Memory.read, if_neg (by omega), Memory.read_nil]

theorem applyReset_statusIs (s : State) : statusIs (applyReset s) 0x00#8 := rfl

/-! ### The two sets, step by step -/

theorem samePackSet.packSetLegal (h : samePackSet s t) (hs : s.packSetLegal) : t.packSetLegal :=
  hs.imp h.packPoisoned fun ⟨k, hk⟩ => ⟨k, h.packHolds hk⟩

theorem sameUnpackSet.unpackSetLegal (h : sameUnpackSet s t) (hs : s.unpackSetLegal) : t.unpackSetLegal :=
  hs.imp h.unpackPoisoned fun ⟨n, k, hk⟩ => ⟨n, k, h.unpackHolds hk⟩

theorem exec_keeps_packSetLegal {i : Instr} (hs : s.packSetLegal) (h : exec i s = .next t) : t.packSetLegal := by
  by_cases hi : i = .pack
  · subst hi
    exact (exec_pack_outcome h).imp (fun ⟨_, hp⟩ => hp) (fun ⟨_, hk⟩ => hk)
  · exact (exec_samePackSet h hi).packSetLegal hs

theorem exec_keeps_unpackSetLegal {i : Instr} (hs : s.unpackSetLegal) (h : exec i s = .next t) : t.unpackSetLegal := by
  by_cases hi : i = .unpack
  · subst hi
    exact (exec_unpack_outcome h).imp (fun ⟨_, hp⟩ => hp) (fun ⟨_, hk⟩ => hk)
  · exact (exec_sameUnpackSet h hi).unpackSetLegal hs

/-- Settles O52, by what a step can do to the results. -/
theorem stepKeepsPackSetLegal : Obligations.StepKeepsPackSetLegal := by
  intro s t hs hstep
  obtain hsame | ⟨line, -, ⟨-, rfl⟩ | ⟨d, -, he⟩⟩ := step_results hstep
  · exact hsame.packSet.packSetLegal hs
  · exact .inl (applyReset_packPoisoned _)
  · exact exec_keeps_packSetLegal (s := advance s) hs he

/-- Settles O53, by what a step can do to the results. -/
theorem stepKeepsUnpackSetLegal : Obligations.StepKeepsUnpackSetLegal := by
  intro s t hs hstep
  obtain hsame | ⟨line, -, ⟨-, rfl⟩ | ⟨d, -, he⟩⟩ := step_results hstep
  · exact hsame.unpackSet.unpackSetLegal hs
  · exact .inl (applyReset_unpackPoisoned _)
  · exact exec_keeps_unpackSetLegal (s := advance s) hs he

/-! ### STATUS tells which set can be read -/

/-- STATUS is the one byte it holds, which decides every clause of `State.statusTellsResults`. -/
theorem statusIs_iff_eq {v : Byte} (h : statusIs s v) (w : Byte) : statusIs s w ↔ v = w :=
  ⟨statusIs_unique h, fun e => e ▸ h⟩

theorem sameResults.statusTellsResults (h : sameResults s t) (hs : s.statusTellsResults) : t.statusTellsResults := by
  obtain ⟨hreset, hpacked, htooLarge, hunpacked, hshort, hflags⟩ := hs
  have hpoisoned := h.packSet.packPoisoned
  have hupoisoned := h.unpackSet.unpackPoisoned
  simp only [State.statusTellsResults, h.statusIs_iff]
  exact ⟨fun e => (hreset e).imp hpoisoned hupoisoned, fun e => (hpacked e).imp fun _ => h.packSet.packHolds,
    fun e => hpoisoned (htooLarge e),
    fun e => (hunpacked e).imp fun _ hk => hk.imp fun _ => h.unpackSet.unpackHolds,
    fun e => hupoisoned (hshort e), fun e => hupoisoned (hflags e)⟩

/-- Whatever STATUS told before, it tells the truth after a command: the command's own outcome. -/
theorem exec_statusTellsResults {i : Instr} (h : exec i s = .next t) : t.statusTellsResults := by
  cases i with
  | pack =>
    obtain ⟨hst, hp⟩ | ⟨hst, hk⟩ := exec_pack_outcome h
    · simp [State.statusTellsResults, statusIs_iff_eq hst, hp]
    · simp [State.statusTellsResults, statusIs_iff_eq hst, hk]
  | unpack =>
    obtain ⟨hst | hst, hp⟩ | ⟨hst, hk⟩ := exec_unpack_outcome h
    · simp [State.statusTellsResults, statusIs_iff_eq hst, hp]
    · simp [State.statusTellsResults, statusIs_iff_eq hst, hp]
    · simp [State.statusTellsResults, statusIs_iff_eq hst, hk]
  | illegal op rsv => simp [State.statusTellsResults, statusIs_iff_eq (exec_illegal_outcome h)]

theorem applyReset_statusTellsResults (s : State) : (applyReset s).statusTellsResults := by
  simp [State.statusTellsResults, statusIs_iff_eq (applyReset_statusIs s), applyReset_packPoisoned,
    applyReset_unpackPoisoned]

/-- Settles O54, by what a step can do to the results. -/
theorem stepKeepsStatusTellsResults : Obligations.StepKeepsStatusTellsResults := by
  intro s t hs hstep
  obtain hsame | ⟨line, -, ⟨-, rfl⟩ | ⟨d, -, he⟩⟩ := step_results hstep
  · exact hsame.statusTellsResults hs
  · exact applyReset_statusTellsResults _
  · exact exec_statusTellsResults he

end Sys2Proof.Machine
end

section
/-! PROOF of O51 and O42. STATUS is legal after every command (its outcomes) and after the RESET event; H_VERSION and H_C are cut
to their fields by the one operation that writes them, the host's store. -/

namespace Sys2Proof.Machine

variable {s t : State}

/-- H_VERSION and H_C, where written, hold no bit outside their fields (R15, R16). -/
def fieldsLegal (s : State) : Prop :=
  (∀ v, readReg .hVersion s = some v → v.toNat ≤ 3) ∧ (∀ v, readReg .hC s = some v → v.toNat ≤ 1)

/-- An 8-bit register's value is its byte's. -/
theorem readReg_toNat_le_iff {r : Reg} (hr : r.row.size = 1) (m : Nat) :
    (∀ v, readReg r s = some v → v.toNat ≤ m) ↔
      ∀ b, Memory.read s.regs r.row.offset = some b → b.toNat ≤ m := by
  cases h : Memory.read s.regs r.row.offset <;> simp [readReg, h, hr, joinBytes_toNat]

/-- The bound on the two field registers, as a bound on bytes 0x02 and 0x03. -/
theorem fieldsLegal_iff :
    fieldsLegal s ↔ (∀ b, Memory.read s.regs 0x02 = some b → b.toNat ≤ 3) ∧
      (∀ b, Memory.read s.regs 0x03 = some b → b.toNat ≤ 1) :=
  and_congr (readReg_toNat_le_iff rfl 3) (readReg_toNat_le_iff rfl 1)

/-- A host write stores in H_VERSION and H_C their field alone (R15, R16, R42). -/
theorem Place.write_keeps_fieldsLegal (p : Place) (v : Byte) (h : fieldsLegal s) : fieldsLegal (p.write v s) := by
  cases p with
  | reg i =>
    rw [fieldsLegal_iff] at h ⊢
    obtain ⟨hver, hc⟩ := h
    refine ⟨fun b hb => ?_, fun b hb => ?_⟩
    · rw [Place.write, Memory.read_write] at hb
      split at hb
      · subst i
        have hfield : b = (v.extractLsb' 0 2).setWidth 8 := by simpa [storedByte_eq] using hb.symm
        rw [hfield]; simp; omega
      · exact hver b hb
    · rw [Place.write, Memory.read_write] at hb
      split at hb
      · subst i
        have hfield : b = (v.extractLsb' 0 1).setWidth 8 := by simpa [storedByte_eq] using hb.symm
        rw [hfield]; simp; omega
      · exact hc b hb
  | out i => exact h
  | inp i => exact h

theorem memStore_keeps_fieldsLegal {a : Offset} {width : Nat} {v : Half} (h : fieldsLegal s)
    (hs : memStore a width v s = .ok t) : fieldsLegal t := by
  rcases memStore_cases hs with ⟨-, p, -, -, rfl⟩ | ⟨-, -, p, q, -, -, -, -, rfl⟩
  · exact Place.write_keeps_fieldsLegal _ _ h
  · exact Place.write_keeps_fieldsLegal _ _ (Place.write_keeps_fieldsLegal _ _ h)

/-- No command writes the host's registers (R68, R75, R87). -/
theorem exec_keeps_fieldsLegal {i : Instr} (h : fieldsLegal s) (he : exec i s = .next t) : fieldsLegal t := by
  have hread : ∀ a, 0x02 ≤ a → a ≤ 0x03 → Memory.read t.regs a = Memory.read s.regs a := fun a _ _ =>
    exec_read_regs he (by omega) (fun _ => by omega) (fun _ => by omega)
  rw [fieldsLegal_iff] at h ⊢
  rwa [hread 0x02 (by omega) (by omega), hread 0x03 (by omega) (by omega)]

theorem applyReset_fieldsLegal (s : State) : fieldsLegal (applyReset s) := by
  rw [fieldsLegal_iff, applyReset_regs]
  simp [Memory.read]

theorem step_keeps_fieldsLegal (h : fieldsLegal s) (hstep : step s = .next t) : fieldsLegal t := by
  obtain rfl | ⟨i, he⟩ | ⟨a, width, v, hs⟩ | ⟨x, v, rfl⟩ | ⟨p, rfl⟩ | rfl := step_cases hstep
  · exact h
  · exact exec_keeps_fieldsLegal (s := advance s) h he
  · exact memStore_keeps_fieldsLegal (s := advance s) h hs
  · exact h
  · exact h
  · exact applyReset_fieldsLegal _

/-- The values that STATUS takes after a command (R12 to R14, R87). -/
def outcomes : Instr → List Byte
  | .pack => [0x11#8, 0x16#8]
  | .unpack => [0x21#8, 0x22#8, 0x24#8]
  | .illegal _ _ => [0x38#8]

theorem outcomes_legal (i : Instr) : ∀ v ∈ outcomes i, v ∈ legalStatus := by
  cases i with
  | pack => decide
  | unpack => decide
  | illegal op rsv => simp [outcomes, legalStatus]

theorem exec_outcome {i : Instr} (h : exec i s = .next t) : ∃ v ∈ outcomes i, statusIs t v := by
  cases i with
  | pack =>
    obtain ⟨hst, -⟩ | ⟨hst, -⟩ := exec_pack_outcome h
    · exact ⟨_, by decide, hst⟩
    · exact ⟨_, by decide, hst⟩
  | unpack =>
    obtain ⟨hst | hst, -⟩ | ⟨hst, -⟩ := exec_unpack_outcome h
    · exact ⟨_, by decide, hst⟩
    · exact ⟨_, by decide, hst⟩
    · exact ⟨_, by decide, hst⟩
  | illegal op rsv => exact ⟨_, List.mem_singleton_self _, exec_illegal_outcome h⟩

theorem step_keeps_statusLegal (h : ∃ v ∈ legalStatus, statusIs s v) (hstep : step s = .next t) :
    ∃ v ∈ legalStatus, statusIs t v := by
  obtain hsame | ⟨line, -, ⟨-, rfl⟩ | ⟨d, -, he⟩⟩ := step_results hstep
  · simpa only [hsame.statusIs_iff] using h
  · exact ⟨0x00#8, by decide, applyReset_statusIs _⟩
  · obtain ⟨v, hv, hst⟩ := exec_outcome he
    exact ⟨v, outcomes_legal _ v hv, hst⟩

/-- Settles O51: STATUS by what a step can do to the results, the field registers by what it can do at all. -/
theorem stepKeepsRegistersLegal : Obligations.StepKeepsRegistersLegal := by
  rintro s t ⟨hstatus, hfields⟩ hstep
  exact ⟨step_keeps_statusLegal hstatus hstep, step_keeps_fieldsLegal hfields hstep⟩

/-- The fields of each value that a command leaves in STATUS (R11 to R13). -/
theorem outcomes_fields (i : Instr) : ∀ v ∈ outcomes i, v.extractLsb' 6 2 = 0#2 ∧
    (v.extractLsb' 0 1 = 1#1 ↔ v.extractLsb' 1 3 = 0#3) ∧
    (i = .pack → v.extractLsb' 4 2 = 1#2 ∧ (v.extractLsb' 1 3 = 0#3 ∨ v.extractLsb' 1 3 = 3#3)) ∧
    (i = .unpack → v.extractLsb' 4 2 = 2#2 ∧
      (v.extractLsb' 1 3 = 0#3 ∨ v.extractLsb' 1 3 = 1#3 ∨ v.extractLsb' 1 3 = 2#3)) ∧
    ((∃ op rsv, i = .illegal op rsv) → v.extractLsb' 4 2 = 3#2 ∧ v.extractLsb' 1 3 = 4#3) := by
  cases i with
  | pack => simp [outcomes]
  | unpack => simp [outcomes]
  | illegal op rsv => simp [outcomes]

/-- Settles O42: STATUS ends at one of the command's outcomes, and each of these has the fields that R11 to R13 give. -/
theorem commandRecordsItsOutcomeInStatus : Obligations.CommandRecordsItsOutcomeInStatus := by
  intro s t i h
  obtain ⟨v, hv, hst⟩ := exec_outcome h
  exact ⟨v, hst, outcomes_fields i v hv⟩

end Sys2Proof.Machine
end

section
/-! PROOF of O17, O21, O22 and O15. Which offsets change with what: a read-only byte only by a command or by the RESET
event, a byte of a result set only by its own command, a reserved byte and CMD by no command at all. -/

namespace Sys2Proof.Machine

variable {s t : State}

/-- Where the results agree, so does every byte of the host space that the host may only read. -/
theorem sameResults.peek_eq {a : Offset} (h : sameResults s t) (ha : hostReadOnly a) : peek t a = peek s a := by
  obtain ⟨hcap, hout, hregs⟩ := h
  unfold hostReadOnly at ha
  unfold peek
  rw [hcap, locate_eq]
  by_cases hreg : a.toNat < 0x40
  · rw [if_pos hreg]
    exact hregs _ (by omega)
  · rw [if_neg hreg, if_pos (by omega)]
    exact congrArg (Memory.read · _) hout

/-- A read-only byte that a step changes: the line is the RESET event or performs a command (R37). -/
theorem step_changes_readOnly {a : Offset} (ha : hostReadOnly a) (hstep : step s = .next t)
    (hne : peek t a ≠ peek s a) :
    ∃ line, currentLine s = some line ∧ (line.op = .resetEvent ∨
      ∃ d, line.op = .write 0 1 d ∧ exec (decodeByte (lowByte (hostData d s))) (advance s) = .next t) := by
  obtain hsame | ⟨line, hline, h⟩ := step_results hstep
  · exact absurd (hsame.peek_eq ha) hne
  · exact ⟨line, hline, h.imp_left fun ⟨hop, _⟩ => hop⟩

/-- Settles O21, by what a step that changes a read-only byte can be. -/
theorem resultsChangeOnlyByCommands : Obligations.ResultsChangeOnlyByCommands := by
  intro s t a ha hstep hne
  obtain ⟨line, hline, h⟩ := step_changes_readOnly ha hstep hne
  exact ⟨line, hline, h.imp_right fun ⟨d, hop, _⟩ => ⟨d, hop⟩⟩

theorem packWrites_readOnly {a : Offset} (h : packWrites a) : hostReadOnly a := by
  unfold packWrites at h
  unfold hostReadOnly
  omega

theorem unpackWrites_readOnly {a : Offset} (h : unpackWrites a) : hostReadOnly a := by
  unfold unpackWrites at h
  unfold hostReadOnly
  omega

/-- The two commands write no byte in common but STATUS (R34). -/
theorem packWrites_unpackWrites {a : Offset} (hp : packWrites a) (hu : unpackWrites a) : a.toNat = 0x01 := by
  unfold packWrites at hp
  unfold unpackWrites at hu
  omega

theorem decodeByte_pack_iff (v : Byte) : decodeByte v = .pack ↔ v = 0x01#8 := by revert v; decide

theorem decodeByte_unpack_iff (v : Byte) : decodeByte v = .unpack ↔ v = 0x02#8 := by revert v; decide

/-- A byte of the UNPACK result set changes by UNPACK alone (R34). -/
theorem exec_changes_unpackSet {i : Instr} {a : Offset} (h : exec i s = .next t) (hstatus : a.toNat ≠ 0x01)
    (ha : unpackWrites a) (hne : peek t a ≠ peek s a) : i = .unpack := by
  by_contra hi
  exact hne (exec_peek h hstatus (fun _ hp => hstatus (packWrites_unpackWrites hp ha)) (fun e => absurd e hi))

/-- A byte of the PACK result set changes by PACK alone (R34). -/
theorem exec_changes_packSet {i : Instr} {a : Offset} (h : exec i s = .next t) (hstatus : a.toNat ≠ 0x01)
    (ha : packWrites a) (hne : peek t a ≠ peek s a) : i = .pack := by
  by_contra hi
  exact hne (exec_peek h hstatus (fun e => absurd e hi) (fun _ hu => hstatus (packWrites_unpackWrites ha hu)))

/-- Settles O22: of the commands that a step can perform, the set's own is the only one that changes the set. -/
theorem resultSetsChangeOnlyByTheirOwnCommand : Obligations.ResultSetsChangeOnlyByTheirOwnCommand := by
  intro s t a hstep hne hstatus
  constructor
  · intro ha
    obtain ⟨line, hline, h⟩ := step_changes_readOnly (unpackWrites_readOnly ha) hstep hne
    refine ⟨line, hline, h.imp_right fun ⟨d, hop, he⟩ => ⟨d, hop, ?_⟩⟩
    exact (decodeByte_unpack_iff _).1 (exec_changes_unpackSet he hstatus ha hne)
  · intro ha
    obtain ⟨line, hline, h⟩ := step_changes_readOnly (packWrites_readOnly ha) hstep hne
    refine ⟨line, hline, h.imp_right fun ⟨d, hop, he⟩ => ⟨d, hop, ?_⟩⟩
    exact (decodeByte_pack_iff _).1 (exec_changes_packSet he hstatus ha hne)

/-! ### Offsets that hold nothing the host may reach -/

/-- The one byte read of a 1-byte read (R40). -/
theorem memRead_one (a : Offset) (s : State) :
    memRead a 1 s = (readByte (.access .read a 1) a s).map (joinBytes 0) := by
  unfold memRead
  rw [if_pos rfl]
  cases readByte (.access .read a 1) a s <;> rfl

/-- The one byte store of a 1-byte write (R40). -/
theorem memStore_one (a : Offset) (v : Half) (s : State) :
    memStore a 1 v s = storeByte (.access .write a 1) a (lowByte v) s := rfl

/-- Settles O17: a reserved offset has no right of access, and is among no command's results. -/
theorem reservedOffsetsFault : Obligations.ReservedOffsetsFault := by
  intro s a v ha
  have hrw : ¬ hostWritable s.bufCap a := by unfold hostWritable; omega
  have hro : ¬ hostReadOnly a := by unfold hostReadOnly; omega
  have hcmd : ¬ ((1 : Nat) = 1 ∧ a = 0) := by rintro ⟨-, rfl⟩; simp at ha
  refine ⟨?_, ?_, fun i t h => ?_⟩
  · rw [memRead_one, (readByte_spec _ a s).2 (not_or.2 ⟨hrw, hro⟩)]
    rfl
  · rw [memWrite_of_store hcmd, memStore_one, storeByte_fault hrw]
  · exact exec_peek h (by omega) (fun _ hp => hro (packWrites_readOnly hp)) (fun _ hu => hro (unpackWrites_readOnly hu))

theorem not_hostWritable_cmd (cap : Nat) : ¬ hostWritable cap 0 := by simp [hostWritable]

theorem not_hostReadOnly_cmd : ¬ hostReadOnly 0 := by simp [hostReadOnly]

theorem memWrite_cmd (v : Half) (s : State) : memWrite 0 1 v s = exec (decodeByte (lowByte v)) s := by
  rw [memWrite, if_pos (isCommandWrite_iff.2 ⟨rfl, rfl⟩)]

theorem readByte_cmd (o : Origin) (s : State) : readByte o 0 s = .error (.accessFault o) :=
  (readByte_spec o 0 s).2 (not_or.2 ⟨not_hostWritable_cmd _, not_hostReadOnly_cmd⟩)

/-- Settles O15: CMD is neither readable nor storable, and is among no command's results. -/
theorem cmdIsWriteOnly : Obligations.CmdIsWriteOnly := by
  intro s v
  refine ⟨memWrite_cmd v s, fun t h => ?_, ?_, ?_, ?_⟩
  · rw [memWrite_cmd] at h
    exact exec_peek h (by simp) (fun _ hp => not_hostReadOnly_cmd (packWrites_readOnly hp))
      (fun _ hu => not_hostReadOnly_cmd (unpackWrites_readOnly hu))
  · rw [memRead_one, readByte_cmd]
    rfl
  · rw [memRead_two (by rfl), readByte_cmd]
  · rw [memWrite_of_store (by simp), memStore_two (by rfl), storeByte_fault (not_hostWritable_cmd _)]

end Sys2Proof.Machine
end

section
/-! PROOF of O44. A command that runs again on the state it left finds its operands as they were, so it does the same
update again, and each update done twice is the update done once. -/

namespace Sys2Proof.Machine

variable {s t : State}

/-! ### Canonical arrays are equal where they read alike -/

/-- What an index reads as is an entry of the array. -/
theorem Memory.mem_of_read {α : Type} {m : List (Nat × α)} {a : Nat} {v : α} (h : Memory.read m a = some v) :
    (a, v) ∈ m := by
  induction m with
  | nil => cases h
  | cons d rest ih =>
    obtain ⟨k, w⟩ := d
    by_cases hk : k = a
    · simp only [Memory.read, hk, if_true, Option.some.injEq] at h
      simp [hk, h]
    · simp only [Memory.read, hk, if_false] at h
      exact List.mem_cons_of_mem _ (ih h)

theorem Memory.mem_iff_read {α : Type} {m : List (Nat × α)} (hwf : Memory.wf m) (c : Nat × α) :
    c ∈ m ↔ Memory.read m c.1 = some c.2 := ⟨Memory.read_of_mem hwf, Memory.mem_of_read⟩

/-- The canonical form is one list for each reading of the indices (log 2). -/
theorem Memory.eq_of_read {α : Type} {m m' : List (Nat × α)} (hwf : Memory.wf m) (hwf' : Memory.wf m')
    (h : ∀ a, Memory.read m a = Memory.read m' a) : m = m' := by
  have hperm : m.Perm m' := by
    rw [List.perm_ext_iff_of_nodup (hwf.imp fun hlt e => by simp [e] at hlt) (hwf'.imp fun hlt e => by simp [e] at hlt)]
    intro c
    rw [Memory.mem_iff_read hwf, Memory.mem_iff_read hwf', h]
  exact hperm.eq_of_pairwise (fun c d _ _ hcd hdc => absurd hdc (Nat.lt_asymm hcd)) hwf hwf'

/-- Two states with the same host and canonical REGS are equal where REGS read alike and OUT and IN are the same. -/
theorem State.eq_of_read_regs (hwf : Memory.wf s.regs) (hwf' : Memory.wf t.regs)
    (hregs : ∀ a, Memory.read t.regs a = Memory.read s.regs a) (hout : t.out = s.out) (hin : t.inBuf = s.inBuf)
    (hhost : sameHost s t) : t = s := by
  have hregs := Memory.eq_of_read hwf' hwf hregs
  obtain ⟨hcap, hscript, hpos, hvars⟩ := hhost
  cases s
  cases t
  simp_all

/-! ### Each update of a command, done twice -/

theorem raiseFail_idem (c : Command) (f : Failure) (hwf : Memory.wf s.regs) :
    raiseFail c f (raiseFail c f s) = raiseFail c f s := by
  refine State.eq_of_read_regs (wf_raiseFail c f hwf) (wf_raiseFail c f (wf_raiseFail c f hwf)) (fun a => ?_) ?_
    (by simp) (by simp [sameHost])
  · cases c <;> simp only [raiseFail_read_regs] <;> split_ifs <;> rfl
  · cases c <;> rfl

theorem packDone_idem (ver : BitVec 2) (c : BitVec 1) (proto : Byte) (flags : Half) (ext : List Byte)
    (hwf : Memory.wf s.regs) :
    packDone ver c proto flags ext (packDone ver c proto flags ext s) = packDone ver c proto flags ext s := by
  refine State.eq_of_read_regs (wf_packDone _ _ _ _ _ hwf) (wf_packDone _ _ _ _ _ (wf_packDone _ _ _ _ _ hwf))
    (fun a => ?_) (by simp) (by simp) (by simp [sameHost])
  simp only [packDone_read_regs]
  split_ifs <;> rfl

/-- A byte of a result of UNPACK does not depend on what REGS held before. -/
theorem unpackDone_read_result (n : Nat) (b0 proto : Byte) (flags : Half) (s t : State) {a : Nat}
    (h : a = 0x01 ∨ (0x10 ≤ a ∧ a ≤ 0x1D)) :
    Memory.read (unpackDone n b0 proto flags s).regs a = Memory.read (unpackDone n b0 proto flags t).regs a := by
  rw [unpackDone_read_regs, unpackDone_read_regs]
  obtain rfl | ⟨h1, h2⟩ := h
  · rfl
  · interval_cases a <;> rfl

theorem unpackDone_idem (n : Nat) (b0 proto : Byte) (flags : Half) (hwf : Memory.wf s.regs) :
    unpackDone n b0 proto flags (unpackDone n b0 proto flags s) = unpackDone n b0 proto flags s := by
  refine State.eq_of_read_regs (wf_unpackDone _ _ _ _ hwf) (wf_unpackDone _ _ _ _ (wf_unpackDone _ _ _ _ hwf))
    (fun a => ?_) (by simp) (by simp) (by simp [sameHost])
  by_cases h : a = 0x01 ∨ (0x10 ≤ a ∧ a ≤ 0x1D)
  · exact unpackDone_read_result _ _ _ _ _ _ h
  · exact unpackDone_read_regs_outside _ _ _ _ _ _ (by omega) (by omega)

/-! ### A command run again -/

/-- The registers that a command reads as operands (R62, R69). -/
def operandRegs : List Reg := [.inLen, .hVersion, .hC, .hProtocol, .hFlags]

/-- No command changes an operand register, its own or another's (R68, R75, R87). -/
theorem exec_readReg_operand {i : Instr} {r : Reg} (hr : r ∈ operandRegs) (h : exec i s = .next t) :
    readReg r t = readReg r s := by
  refine readReg_congr r fun a ha => ?_
  have hrange : 0x02 ≤ a ∧ a ≤ 0x09 := by
    rw [Reg.covers_iff] at ha
    simp only [operandRegs, List.mem_cons, List.not_mem_nil, or_false] at hr
    rcases hr with rfl | rfl | rfl | rfl | rfl <;> simp only [Reg.row] at ha <;> omega
  exact exec_read_regs h (by omega) (fun _ => by omega) (fun _ => by omega)

theorem exec_pack_again (hwf : Memory.wf s.regs) (h : exec .pack s = .next t) : exec .pack t = .next t := by
  have hreg : ∀ r ∈ operandRegs, readReg r t = readReg r s := fun r hr => exec_readReg_operand hr h
  obtain ⟨hin, hbuf, -⟩ := exec_frame h
  obtain ⟨n, ver, c, proto, flags, hn, hcap, hv, hc, hp, hf, hcases⟩ := execPack_cases h
  have hinputs : packInputs t n ver c proto flags :=
    ⟨(hreg _ (by decide)).trans hn, (hreg _ (by decide)).trans hv, (hreg _ (by decide)).trans hc,
      (hreg _ (by decide)).trans hp, (hreg _ (by decide)).trans hf⟩
  have hle := hlenOf_le_iff n.toNat
  rw [exec_pack_of_inputs hinputs (by omega)]
  obtain ⟨hbig, rfl⟩ | ⟨hfits, ext, hl, hx, rfl⟩ := hcases
  · rw [if_pos (by omega), raiseFail_idem _ _ hwf]
  · rw [if_neg (by omega), needInRange_of_bytes hl (by simpa using hx), packDone_idem _ _ _ _ _ hwf]

theorem exec_unpack_again (hwf : Memory.wf s.regs) (h : exec .unpack s = .next t) : exec .unpack t = .next t := by
  obtain ⟨hin, hbuf, -⟩ := exec_frame h
  obtain ⟨n, hn, hcap, hcases⟩ := execUnpack_cases h
  have hn : readReg .inLen t = some n := (exec_readReg_operand (by decide) h).trans hn
  have hcap : n.toNat ≤ t.bufCap := hbuf ▸ hcap
  obtain ⟨hshort, rfl⟩ | ⟨hge, b0, b1, b2, b3, hb0, hb1, hb2, hb3, hcases⟩ := hcases
  · rw [exec_unpack_of_short hn hcap hshort, raiseFail_idem _ _ hwf]
  · have hheader : inHeader t b0 b1 b2 b3 := by simp only [inHeader, hin, hb0, hb1, hb2, hb3, and_self]
    have hbytes : headerBytes (headerLenOf b0).toNat = 4 + 4 * (headerLenOf b0).toNat := rfl
    rw [exec_unpack_of_header hn hcap hge hheader, hbytes]
    obtain ⟨hflags, rfl⟩ | ⟨hzero, hlen, rfl⟩ | ⟨hzero, hlen, rfl⟩ := hcases
    · rw [if_pos hflags, raiseFail_idem _ _ hwf]
    · rw [if_neg (not_not.2 hzero), if_pos hlen, raiseFail_idem _ _ hwf]
    · rw [if_neg (not_not.2 hzero), if_neg (Nat.not_lt.2 hlen), unpackDone_idem _ _ _ _ hwf]

/-- Settles O44: a command run again does its update a second time, which changes nothing. -/
theorem commandRepeatedChangesNothing : Obligations.CommandRepeatedChangesNothing := by
  intro s t i hwf h
  cases i with
  | pack => exact exec_pack_again hwf h
  | unpack => exact exec_unpack_again hwf h
  | illegal op rsv =>
    obtain rfl := exec_illegal_next.1 h
    exact exec_illegal_next.2 (raiseFail_idem _ _ hwf).symm

end Sys2Proof.Machine
end

section
/-! PROOF of O45. Two states that agree in a command's operands are led through the same branches of the command, to the
same fault or to states that agree in what the command does to them. -/

namespace Sys2Proof.Machine

variable {s u : State} {i : Instr} {R : State → State → Prop}

/-! ### Answers of a command in two states -/

/-- The same fault, the same refusal, or next states that `R` relates. -/
inductive Agree (R : State → State → Prop) : Answer → Answer → Prop
  | next {t w : State} (h : R t w) : Agree R (.next t) (.next w)
  | fault (f : Fault) : Agree R (.fault f) (.fault f)
  | refused (r : Refusal) : Agree R (.refused r) (.refused r)

theorem Agree.of_fault {x y : Answer} {f : Fault} (h : Agree R x y) (hx : x = .fault f) : y = .fault f := by
  cases h with
  | next _ => cases hx
  | fault _ => exact hx
  | refused _ => cases hx

theorem Agree.of_next {x y : Answer} {t : State} (h : Agree R x y) (hx : x = .next t) : ∃ w, y = .next w ∧ R t w := by
  cases h with
  | next h =>
    obtain rfl := Host.Outcome.next.inj hx
    exact ⟨_, rfl, h⟩
  | fault _ => cases hx
  | refused _ => cases hx

theorem needReg_agree {r : Reg} {k l : Half → Answer} (h : readReg r u = readReg r s)
    (hk : ∀ v, Agree R (k v) (l v)) : Agree R (needReg i r s k) (needReg i r u l) := by
  unfold needReg
  rw [h]
  cases readReg r s with
  | none => exact .fault _
  | some v => exact hk v

theorem needIn_agree {j : Nat} {k l : Byte → Answer} (h : Memory.read u.inBuf j = Memory.read s.inBuf j)
    (hk : ∀ b, Agree R (k b) (l b)) : Agree R (needIn i j s k) (needIn i j u l) := by
  unfold needIn
  rw [h]
  cases Memory.read s.inBuf j with
  | none => exact .fault _
  | some b => exact hk b

theorem needInRange_agree {j n : Nat} {k l : List Byte → Answer} (h : u.inBuf = s.inBuf)
    (hk : ∀ bs, Agree R (k bs) (l bs)) : Agree R (needInRange i j n s k) (needInRange i j n u l) := by
  induction n generalizing j k l with
  | zero => exact hk []
  | succ n ih => exact needIn_agree (by rw [h]) fun b => ih fun bs => hk (b :: bs)

theorem needLength_agree {k l : Nat → Answer} (h : readReg .inLen u = readReg .inLen s) (hcap : u.bufCap = s.bufCap)
    (hk : ∀ n, Agree R (k n) (l n)) : Agree R (needLength i s k) (needLength i u l) := by
  refine needReg_agree h fun n => ?_
  rw [hcap]
  split
  · exact .fault _
  · exact hk _

/-- PACK reads the operand registers, IN and BUF_CAP alone (R62, R98). -/
theorem execPack_agree (hregs : ∀ r ∈ operandRegs, readReg r u = readReg r s) (hin : u.inBuf = s.inBuf)
    (hcap : u.bufCap = s.bufCap) (hfail : R (raiseFail .pack .extensionTooLarge s) (raiseFail .pack .extensionTooLarge u))
    (hdone : ∀ ver c proto flags ext, R (packDone ver c proto flags ext s) (packDone ver c proto flags ext u)) :
    Agree R (execPack s) (execPack u) := by
  refine needLength_agree (hregs _ (by decide)) hcap fun n => ?_
  refine needReg_agree (hregs _ (by decide)) fun ver => needReg_agree (hregs _ (by decide)) fun c => ?_
  refine needReg_agree (hregs _ (by decide)) fun proto => needReg_agree (hregs _ (by decide)) fun flags => ?_
  split
  · exact .next hfail
  · exact needInRange_agree hin fun ext => .next (hdone _ _ _ _ ext)

/-- UNPACK reads IN_LEN, the first four bytes of IN and BUF_CAP alone (R69, R71, R99). -/
theorem execUnpack_agree (hlen : readReg .inLen u = readReg .inLen s)
    (hin : ∀ j, j < 4 → Memory.read u.inBuf j = Memory.read s.inBuf j) (hcap : u.bufCap = s.bufCap)
    (hfail : ∀ f, R (raiseFail .unpack f s) (raiseFail .unpack f u))
    (hdone : ∀ n b0 proto flags, R (unpackDone n b0 proto flags s) (unpackDone n b0 proto flags u)) :
    Agree R (execUnpack s) (execUnpack u) := by
  refine needLength_agree hlen hcap fun n => ?_
  split
  · exact .next (hfail _)
  · refine needIn_agree (hin 0 (by omega)) fun b0 => needIn_agree (hin 1 (by omega)) fun b1 => ?_
    refine needIn_agree (hin 2 (by omega)) fun b2 => needIn_agree (hin 3 (by omega)) fun b3 => ?_
    split
    · exact .next (hfail _)
    · split
      · exact .next (hfail _)
      · exact .next (hdone _ _ _ _)

/-! ### REGS after an update depends on REGS before it alone -/

section
variable (h : u.regs = s.regs)
include h

theorem readReg_of_regs (r : Reg) : readReg r u = readReg r s := readReg_congr r fun a _ => by rw [h]

theorem writeReg_regs_of_regs (r : Reg) (v : Half) : (writeReg r v u).regs = (writeReg r v s).regs := by
  simp only [writeReg, h]

theorem poisonRegs_regs_of_regs (rs : List Reg) : (poisonRegs rs u).regs = (poisonRegs rs s).regs := by
  simp only [poisonRegs, h]

theorem raiseFail_regs_of_regs (c : Command) (f : Failure) : (raiseFail c f u).regs = (raiseFail c f s).regs := by
  refine writeReg_regs_of_regs ?_ _ _
  cases c with
  | pack => exact poisonRegs_regs_of_regs h packResultRegs
  | unpack => exact poisonRegs_regs_of_regs h unpackResultRegs
  | noCommand => exact h

theorem packDone_regs_of_regs (ver : BitVec 2) (c : BitVec 1) (proto : Byte) (flags : Half) (ext : List Byte) :
    (packDone ver c proto flags ext u).regs = (packDone ver c proto flags ext s).regs := by
  unfold packDone
  iterate 3 refine writeReg_regs_of_regs ?_ _ _
  exact h

theorem unpackDone_regs_of_regs (n : Nat) (b0 proto : Byte) (flags : Half) :
    (unpackDone n b0 proto flags u).regs = (unpackDone n b0 proto flags s).regs := by
  unfold unpackDone
  iterate 10 refine writeReg_regs_of_regs ?_ _ _
  exact h

end

/-- What O45 says of the states that command `i` leaves. -/
def sameOutcome (i : Instr) (t w : State) : Prop :=
  w.regs = t.regs ∧ w.inBuf = t.inBuf ∧ (i = .pack → w.out = t.out)

theorem exec_agree (hregs : u.regs = s.regs) (hin : u.inBuf = s.inBuf) (hcap : u.bufCap = s.bufCap) (i : Instr) :
    Agree (sameOutcome i) (exec i s) (exec i u) := by
  cases i with
  | pack =>
    refine execPack_agree (fun r _ => readReg_of_regs hregs r) hin hcap ?_ fun ver c proto flags ext => ?_
    · exact ⟨raiseFail_regs_of_regs hregs _ _, by simpa using hin, fun _ => rfl⟩
    · exact ⟨packDone_regs_of_regs hregs _ _ _ _ _, by simpa using hin, fun _ => by simp⟩
  | unpack =>
    refine execUnpack_agree (readReg_of_regs hregs _) (fun j _ => by rw [hin]) hcap (fun f => ?_)
      fun n b0 proto flags => ?_
    · exact ⟨raiseFail_regs_of_regs hregs _ _, by simpa using hin, nofun⟩
    · exact ⟨unpackDone_regs_of_regs hregs _ _ _ _, by simpa using hin, nofun⟩
  | illegal op rsv => exact .next ⟨raiseFail_regs_of_regs hregs _ _, by simpa using hin, nofun⟩

/-- Settles O45: the two answers agree, whether they are faults or next states. -/
theorem outcomeDependsOnRegsAndInAlone : Obligations.OutcomeDependsOnRegsAndInAlone := by
  intro s u i hregs hin hcap
  have hagree := exec_agree hregs hin hcap i
  exact ⟨fun f => hagree.of_fault, fun t => hagree.of_next⟩

end Sys2Proof.Machine
end

section
/-! PROOF of O10, O11, O12 and O19. One byte of the host space: which byte of the state it is, what a 1-byte read of it
gives and what a 1-byte write leaves in it. -/

namespace Sys2Proof.Machine

variable {s t : State}

/-! ### What an offset of each region holds -/

theorem peek_reg {a : Offset} (s : State) (h : a.toNat < 0x40) : peek s a = Memory.read s.regs a.toNat := by
  rw [peek, locate_eq, if_pos h]
  rfl

theorem peek_out {a : Offset} (s : State) (h : 0x1000 ≤ a.toNat) (h' : a.toNat < 0x1080) :
    peek s a = Memory.read s.out (a.toNat - 0x1000) := by
  rw [peek, locate_eq, if_neg (by omega), if_pos ⟨h, h'⟩]
  rfl

theorem peek_inp {a : Offset} (h : 0x10000 ≤ a.toNat) (h' : a.toNat < 0x10000 + s.bufCap) :
    peek s a = Memory.read s.inBuf (a.toNat - 0x10000) := by
  rw [peek, locate_eq, if_neg (by omega), if_neg (by omega), if_pos ⟨h, h'⟩]
  rfl

/-- Settles O10, region by region. -/
theorem offsetsMapToTheThreeArrays : Obligations.OffsetsMapToTheThreeArrays := by
  intro s a
  exact ⟨fun h => peek_reg s (by omega), fun h h' => peek_out s h (by omega), peek_inp⟩

/-! ### A read of one byte -/

theorem joinBytes_zero (b : Byte) : joinBytes 0 b = b.setWidth 16 := by
  have h : b.toNat < 2 ^ 8 := b.isLt
  apply BitVec.eq_of_toNat_eq
  rw [joinBytes_toNat, BitVec.toNat_setWidth, Nat.mod_eq_of_lt (by omega)]
  simp

/-- A byte read answers what the state holds at a RW or RO offset, whatever access it is part of (R43). -/
theorem readByte_ok_iff {o : Origin} {a : Offset} {b : Byte} :
    readByte o a s = .ok b ↔ (hostWritable s.bufCap a ∨ hostReadOnly a) ∧ peek s a = some b := by
  obtain ⟨hreads, hfaults⟩ := readByte_spec o a s
  by_cases ha : hostWritable s.bufCap a ∨ hostReadOnly a
  · rw [hreads ha]
    cases peek s a <;> simp [ha]
  · simp [hfaults ha, ha]

theorem memRead_one_ok_iff {a : Offset} {b : Byte} :
    memRead a 1 s = .ok (b.setWidth 16) ↔ (hostWritable s.bufCap a ∨ hostReadOnly a) ∧ peek s a = some b := by
  rw [memRead_one, ← joinBytes_zero, ← readByte_ok_iff (o := .access .read a 1)]
  cases readByte (.access .read a 1) a s <;> simp [Except.map, joinBytes_inj]

/-- Settles O11, by what a byte read does at each offset. -/
theorem hostReadsAByteByItsRight : Obligations.HostReadsAByteByItsRight := by
  intro s a
  obtain ⟨hreads, hfaults⟩ := readByte_spec (.access .read a 1) a s
  refine ⟨fun ha => ⟨fun v hv => memRead_one_ok_iff.2 ⟨ha, hv⟩, fun hv => ?_⟩, fun ha => ?_⟩
  · rw [memRead_one, hreads ha, hv]
    rfl
  · rw [memRead_one, hfaults ha]
    rfl

/-! ### A write of one byte -/

/-- The low bits of the low byte are those of the value. -/
theorem lowByte_field (v : Half) {k : Nat} (hk : k ≤ 8) : (lowByte v).extractLsb' 0 k = v.extractLsb' 0 k :=
  BitVec.extractLsb'_extractLsb'_of_le (by omega)

/-- What a write of v stores, by the fields of H_VERSION and H_C (R15, R16). -/
theorem storedByte_lowByte (a : Nat) (v : Half) :
    storedByte a (lowByte v) = if a = 0x02 then (v.extractLsb' 0 2).setWidth 8
      else if a = 0x03 then (v.extractLsb' 0 1).setWidth 8 else v.extractLsb' 0 8 := by
  rw [storedByte_eq, lowByte_field v (by omega), lowByte_field v (by omega)]
  rfl

/-- All that a byte store which answers has done, whatever access it is part of (R42). -/
theorem storeByte_inv {o : Origin} {a : Offset} {v : Byte} (h : storeByte o a v s = .ok t) :
    hostWritable s.bufCap a ∧ peek t a = some (storedByte a.toNat v) ∧ (∀ b, b ≠ a → peek t b = peek s b) ∧
      sameHost s t := by
  obtain ⟨p, hp, hr, -⟩ := storeByte_ok.1 h
  have ha : hostWritable s.bufCap a := rw_iff_hostWritable.1 ⟨p, hp, hr⟩
  obtain ⟨u, hu, hbyte, hrest, hhost, -⟩ := storeByte_spec (o := o) (v := v) ha
  obtain rfl : u = t := Except.ok.inj (hu.symm.trans h)
  rw [storedByte_eq]
  exact ⟨ha, hbyte, hrest, hhost⟩

theorem storeByte_ok_of_writable {a : Offset} (o : Origin) (v : Byte) (h : hostWritable s.bufCap a) :
    ∃ t, storeByte o a v s = .ok t :=
  have ⟨t, ht, _⟩ := storeByte_spec (o := o) (v := v) h
  ⟨t, ht⟩

theorem ne_zero_of_hostWritable {cap : Nat} {a : Offset} (h : hostWritable cap a) : a ≠ 0 := by
  rintro rfl
  exact not_hostWritable_cmd cap h

/-- A write that performs no command answers where its store does. -/
theorem memWrite_next_iff {a : Offset} {w : Nat} {v : Half} (h : ¬ (w = 1 ∧ a = 0)) :
    memWrite a w v s = .next t ↔ memStore a w v s = .ok t := by
  rw [memWrite_of_store h]
  cases memStore a w v s <;> simp

/-- A 1-byte write of a byte other than CMD is its byte store, whatever access the store is part of (R42). -/
theorem memWrite_one_next_iff {a : Offset} {v : Half} (o : Origin) (ha : a ≠ 0) :
    memWrite a 1 v s = .next t ↔ storeByte o a (lowByte v) s = .ok t := by
  rw [memWrite_next_iff fun h => ha h.2, memStore_one, storeByte_ok, storeByte_ok]

/-- Settles O12: a RW byte is stored, CMD performs the command, and every other offset faults. -/
theorem hostWritesAByteByItsRight : Obligations.HostWritesAByteByItsRight := by
  intro s a v
  refine ⟨fun ha => ?_, fun ha => ?_, fun hcmd ha => ?_⟩
  · obtain ⟨t, ht⟩ := storeByte_ok_of_writable (.access .write a 1) (lowByte v) ha
    obtain ⟨-, hbyte, hrest, hhost⟩ := storeByte_inv ht
    rw [storedByte_lowByte] at hbyte
    exact ⟨t, (memWrite_one_next_iff _ (ne_zero_of_hostWritable ha)).2 ht, hbyte, hrest, hhost⟩
  · obtain rfl : a = 0 := BitVec.eq_of_toNat_eq ha
    obtain ⟨hexec, hkeep, -⟩ := cmdIsWriteOnly s v
    exact ⟨hexec, hkeep⟩
  · have hne : a ≠ 0 := by rintro rfl; exact hcmd rfl
    rw [memWrite_of_store fun h => hne h.2, memStore_one, storeByte_fault ha]

/-- Settles O19: the offset stays RW, and the byte read is the byte that the write stored. -/
theorem readAfterWriteGivesTheStoredByte : Obligations.ReadAfterWriteGivesTheStoredByte := by
  intro s t a v ha h
  rw [memWrite_one_next_iff (.access .write a 1) (ne_zero_of_hostWritable ha)] at h
  obtain ⟨-, hbyte, -, hcap, -⟩ := storeByte_inv h
  rw [memRead_one_ok_iff.2 ⟨.inl (hcap ▸ ha), hbyte⟩, storedByte_lowByte]
  split_ifs <;> simp

end Sys2Proof.Machine
end

section
/-! PROOF of O13 and O14. A 2-byte access at an even offset is its two byte accesses, lower byte first; every other
2-byte access, and every access of another width, faults. -/

namespace Sys2Proof.Machine

variable {s t : State}

/-! ### Widths and alignment -/

theorem memRead_other_width {w : Nat} (h1 : w ≠ 1) (h2 : w ≠ 2) (a : Offset) (s : State) :
    memRead a w s = .error (.accessFault (.access .read a w)) := by simp [memRead, h1, h2]

theorem memStore_other_width {w : Nat} (h1 : w ≠ 1) (h2 : w ≠ 2) (a : Offset) (v : Half) (s : State) :
    memStore a w v s = .error (.accessFault (.access .write a w)) := by simp [memStore, h1, h2]

theorem memRead_odd {a : Offset} (h : a.toNat % 2 = 1) (s : State) :
    memRead a 2 s = .error (.misaligned (.access .read a 2)) := by simp [memRead, isOdd, h]

theorem memStore_odd {a : Offset} (h : a.toNat % 2 = 1) (v : Half) (s : State) :
    memStore a 2 v s = .error (.misaligned (.access .write a 2)) := by simp [memStore, isOdd, h]

/-! ### The two byte accesses of a 2-byte access -/

/-- A 2-byte read answers a value exactly where the offset is even and the two byte reads answer its bytes (R40, R41). -/
theorem memRead_two_ok_iff {a : Offset} {v : Half} :
    memRead a 2 s = .ok v ↔ a.toNat % 2 = 0 ∧
      memRead a 1 s = .ok ((lowByte v).setWidth 16) ∧ memRead (a + 1) 1 s = .ok ((highByte v).setWidth 16) := by
  by_cases ha : a.toNat % 2 = 0
  · have hbyte : ∀ {b : Offset} {x : Byte},
        memRead b 1 s = .ok (x.setWidth 16) ↔ readByte (.access .read a 2) b s = .ok x :=
      memRead_one_ok_iff.trans readByte_ok_iff.symm
    rw [memRead_two ha, hbyte, hbyte]
    cases readByte (.access .read a 2) a s with
    | error f => simp
    | ok lo =>
      cases readByte (.access .read a 2) (a + 1) s with
      | error f => simp
      | ok hi =>
        have hsplit : joinBytes hi lo = v ↔ hi = highByte v ∧ lo = lowByte v := by
          rw [← joinBytes_inj, joinBytes_high_low]
        simp [ha, hsplit, and_comm]
  · simp [memRead_odd (show a.toNat % 2 = 1 by omega), ha]

/-- A 2-byte store answers exactly where the offset is even and the two byte stores, one after the other, answer
(R40, R41). -/
theorem memStore_two_ok_iff {a : Offset} {v : Half} :
    memStore a 2 v s = .ok t ↔ a.toNat % 2 = 0 ∧ ∃ s1, storeByte (.access .write a 2) a (lowByte v) s = .ok s1 ∧
      storeByte (.access .write a 2) (a + 1) (highByte v) s1 = .ok t := by
  by_cases ha : a.toNat % 2 = 0
  · rw [memStore_two ha]
    cases storeByte (.access .write a 2) a (lowByte v) s <;> simp [ha]
  · simp [memStore_odd (show a.toNat % 2 = 1 by omega), ha]

theorem memWrite_two_next_iff {a : Offset} {v : Half} : memWrite a 2 v s = .next t ↔ memStore a 2 v s = .ok t :=
  memWrite_next_iff (by simp)

theorem memWrite_two_fault_iff {a : Offset} {v : Half} {f : Fault} :
    memWrite a 2 v s = .fault f ↔ memStore a 2 v s = .error f := by
  rw [memWrite_of_store (by simp)]
  cases memStore a 2 v s <;> simp

theorem lowByte_shiftRight (v : Half) : lowByte (v >>> 8) = highByte v := by
  apply BitVec.eq_of_toNat_eq
  rw [lowByte_toNat, highByte_toNat, BitVec.toNat_ushiftRight, Nat.shiftRight_eq_div_pow]
  have h : v.toNat < 2 ^ 16 := v.isLt
  omega

/-- A 2-byte store that covers a byte that the host may not write faults (R40, R42). -/
theorem memStore_two_fault {a : Offset} (v : Half)
    (h : ¬ (hostWritable s.bufCap a ∧ hostWritable s.bufCap (a + 1))) : ∃ f, memStore a 2 v s = .error f := by
  cases hs : memStore a 2 v s with
  | error f => exact ⟨f, rfl⟩
  | ok t =>
    obtain ⟨-, s1, hlo, hhi⟩ := memStore_two_ok_iff.1 hs
    obtain ⟨ha, -, -, hcap, -⟩ := storeByte_inv hlo
    obtain ⟨ha1, -⟩ := storeByte_inv hhi
    exact absurd ⟨ha, hcap ▸ ha1⟩ h

/-- A 2-byte read of a byte that a 1-byte read cannot give faults (R40, R43). -/
theorem memRead_two_fault {a : Offset}
    (h : (∃ f, memRead a 1 s = .error f) ∨ ∃ f, memRead (a + 1) 1 s = .error f) : ∃ f, memRead a 2 s = .error f := by
  cases hr : memRead a 2 s with
  | error f => exact ⟨f, rfl⟩
  | ok v =>
    obtain ⟨-, hlo, hhi⟩ := memRead_two_ok_iff.1 hr
    rw [hlo, hhi] at h
    simp at h

/-- Settles O13: the checks of width and alignment, and a 2-byte access as its two byte accesses. -/
theorem wideAccessIsTwoByteAccesses : Obligations.WideAccessIsTwoByteAccesses := by
  intro s a v
  refine ⟨fun w h1 h2 => ⟨memRead_other_width h1 h2 a s, ?_⟩, fun hodd => ⟨memRead_odd hodd s, ?_⟩, fun ha => ?_,
    fun b ha hb => memRead_one_ok_iff.2 ⟨ha, hb⟩, fun heven => ⟨fun lo hi hlo hhi => ?_, memRead_two_fault, ?_, ?_⟩⟩
  · rw [memWrite_of_store fun h => h1 h.1, memStore_other_width h1 h2]
  · exact memWrite_two_fault_iff.2 (memStore_odd hodd v s)
  · obtain ⟨t, ht, -⟩ := (hostWritesAByteByItsRight s a v).1 ha
    exact ⟨t, ht⟩
  · exact (memRead_two_ok_iff (v := joinBytes hi lo)).2
      ⟨heven, by rwa [lowByte_joinBytes], by rwa [highByte_joinBytes]⟩
  · intro t u ha ha1 hlo hhi
    rw [memWrite_one_next_iff (.access .write a 2) (ne_zero_of_hostWritable ha)] at hlo
    rw [memWrite_one_next_iff (.access .write a 2) (ne_zero_of_hostWritable ha1), lowByte_shiftRight] at hhi
    exact memWrite_two_next_iff.2 (memStore_two_ok_iff.2 ⟨heven, t, hlo, hhi⟩)
  · intro h
    obtain ⟨f, hf⟩ := memStore_two_fault v h
    exact ⟨f, memWrite_two_fault_iff.2 hf⟩

/-! ### Byte order -/

/-- What a 2-byte write leaves: the stored low byte at its offset and the stored high byte at the next (R41, R42). -/
theorem memWrite_two_stores {a : Offset} {v : Half} (h : memWrite a 2 v s = .next t) :
    a.toNat % 2 = 0 ∧ hostWritable t.bufCap a ∧ hostWritable t.bufCap (a + 1) ∧
      peek t a = some (storedByte a.toNat (lowByte v)) ∧
      peek t (a + 1) = some (storedByte (a.toNat + 1) (highByte v)) := by
  obtain ⟨heven, s1, hlo, hhi⟩ := memStore_two_ok_iff.1 (memWrite_two_next_iff.1 h)
  obtain ⟨ha, hbyte, -, hcap, -⟩ := storeByte_inv hlo
  obtain ⟨ha1, hbyte1, hrest, hcap1, -⟩ := storeByte_inv hhi
  have hne : a ≠ a + 1 := fun e => absurd (congrArg BitVec.toNat e) (by rw [toNat_add_one heven]; omega)
  rw [toNat_add_one heven] at hbyte1
  rw [hcap1]
  exact ⟨heven, hcap ▸ ha, ha1, (hrest a hne).trans hbyte, hbyte1⟩

theorem highByte_field (v : Half) {k : Nat} (hk : k ≤ 8) : (highByte v).extractLsb' 0 k = v.extractLsb' 8 k := by
  ext i hi
  simp only [highByte, BitVec.getElem_extractLsb', BitVec.getLsbD_extractLsb', Nat.zero_add, show i < 8 by omega,
    decide_true, Bool.true_and]

/-- Outside H_VERSION and H_C a write stores all of the byte (R42). -/
theorem storedByte_outside {a : Nat} (h2 : a ≠ 0x02) (h3 : a ≠ 0x03) (v : Byte) : storedByte a v = v := by
  rw [storedByte_eq, if_neg h2, if_neg h3]

/-- A 16-bit register's value is its higher byte above its lower (R8, R41). -/
theorem readReg_wide_iff {r : Reg} {v : Half} (hr : r.row.size = 2) :
    readReg r s = some v ↔ ∃ lo hi : Byte, Memory.read s.regs r.row.offset = some lo ∧
      Memory.read s.regs (r.row.offset + 1) = some hi ∧ v = hi ++ lo := by
  constructor
  · intro h
    obtain ⟨hlo, hhi⟩ := bytes_of_readReg h
    exact ⟨_, _, hlo, hhi hr, (joinBytes_high_low v).symm⟩
  · rintro ⟨lo, hi, hlo, hhi, rfl⟩
    exact readReg_of_bytes hr hlo hhi

/-- Settles O14: the bytes of a 2-byte write, of a 2-byte read, of a 16-bit register and of the flags on the wire. -/
theorem hostInterfaceIsLittleEndian : Obligations.HostInterfaceIsLittleEndian := by
  refine ⟨fun s t a v h => ?_, fun s a v h => ?_, fun s r v hr => readReg_wide_iff hr, fun f => rfl⟩
  · obtain ⟨heven, ha, ha1, hlo, hhi⟩ := memWrite_two_stores h
    refine ⟨fun hne => ?_, fun hver => ?_⟩
    · rw [storedByte_outside hne (by omega)] at hlo
      rw [storedByte_outside (by omega) (by omega)] at hhi
      exact ⟨hlo, hhi, memRead_two_ok_iff.2
        ⟨heven, memRead_one_ok_iff.2 ⟨.inl ha, hlo⟩, memRead_one_ok_iff.2 ⟨.inl ha1, hhi⟩⟩⟩
    · rw [hver] at hlo hhi
      rw [storedByte_eq, if_pos rfl, lowByte_field v (by omega)] at hlo
      rw [storedByte_eq, if_neg (by omega), if_pos rfl, highByte_field v (by omega)] at hhi
      exact ⟨hlo, hhi⟩
  · obtain ⟨-, hlo, hhi⟩ := memRead_two_ok_iff.1 h
    exact ⟨_, _, (memRead_one_ok_iff.1 hlo).2, (memRead_one_ok_iff.1 hhi).2, (joinBytes_high_low v).symm⟩

end Sys2Proof.Machine
end

section
/-! PROOF of O23. A store done again finds each of its bytes as it left it, and in canonical form writing what is already
there changes nothing. -/

namespace Sys2Proof.Machine

variable {s t : State}

/-- What a host write of v stores at a place (R15, R16, R42). -/
def Place.stored (v : Byte) : Place → Byte
  | .reg i => storedByte i v
  | .out _ => v
  | .inp _ => v

theorem Place.read_write_same (p : Place) (v : Byte) (s : State) : p.read (p.write v s) = some (p.stored v) := by
  cases p <;> exact Memory.read_write_same _ _ _

/-- The two arrays that a host write may store in are in canonical form (log 2). -/
def hostArraysWf (s : State) : Prop := Memory.wf s.regs ∧ Memory.wf s.inBuf

theorem Place.write_keeps_hostArraysWf (p : Place) (v : Byte) (h : hostArraysWf s) : hostArraysWf (p.write v s) :=
  have ⟨hregs, _, hin⟩ := wf_place_write p v s
  ⟨hregs h.1, hin h.2⟩

/-- In canonical form, a host write of what a RW byte already holds changes nothing. -/
theorem Place.write_of_read {p : Place} {v : Byte} (hwf : hostArraysWf s) (hr : p.right = some .rw)
    (h : p.read s = some (p.stored v)) : p.write v s = s := by
  obtain ⟨hregs, hin⟩ := hwf
  rcases (Place.right_rw_iff p).1 hr with ⟨i, rfl, -⟩ | ⟨i, rfl⟩
  · have hsame : Memory.write i (storedByte i v) s.regs = s.regs := Memory.write_of_read hregs h
    rw [Place.write, hsame]
  · have hsame : Memory.write i v s.inBuf = s.inBuf := Memory.write_of_read hin h
    rw [Place.write, hsame]

theorem storeByte_of_stored {o : Origin} {a : Offset} {v : Byte} {p : Place} (hwf : hostArraysWf s)
    (hp : locate s.bufCap a = some p) (hr : p.right = some .rw) (h : p.read s = some (p.stored v)) :
    storeByte o a v s = .ok s :=
  storeByte_ok.2 ⟨p, hp, hr, (Place.write_of_read hwf hr h).symm⟩

/-- A store done again on the state it left changes nothing (R46). -/
theorem memStore_again {a : Offset} {w : Nat} {v : Half} (hwf : hostArraysWf s) (h : memStore a w v s = .ok t) :
    memStore a w v t = .ok t := by
  rcases memStore_cases h with ⟨rfl, p, hp, hr, rfl⟩ | ⟨rfl, heven, p, q, hp, hr, hq, hr2, rfl⟩
  · rw [memStore_one]
    exact storeByte_of_stored (p.write_keeps_hostArraysWf _ hwf) (by simpa using hp) hr (p.read_write_same _ _)
  · have hwf := q.write_keeps_hostArraysWf (highByte v) (p.write_keeps_hostArraysWf (lowByte v) hwf)
    have hne : p ≠ q := by
      rintro rfl
      have := congrArg BitVec.toNat (locate_inj hp hq)
      rw [toNat_add_one heven] at this
      omega
    have hlo : p.read (q.write (highByte v) (p.write (lowByte v) s)) = some (p.stored (lowByte v)) := by
      rw [Place.read_write_ne hne, Place.read_write_same]
    exact memStore_two_ok_iff.2 ⟨heven, _, storeByte_of_stored hwf (by simpa using hp) hr hlo,
      storeByte_of_stored hwf (by simpa using hq) hr2 (q.read_write_same _ _)⟩

/-- Settles O23: a write that performs no command is its store, and a store done again changes nothing. -/
theorem repeatedWriteLeavesTheSameState : Obligations.RepeatedWriteLeavesTheSameState := by
  intro s t a w v hregs hin hcmd h
  rw [memWrite_next_iff hcmd] at h ⊢
  exact memStore_again ⟨hregs, hin⟩ h

end Sys2Proof.Machine
end

section
/-! PROOF of O5, O18 and O20. A step is what its line does: a read line moves the host alone, and a byte that the host may
write changes with no line but the RESET event or a write that covers it. -/

namespace Sys2Proof.Machine

variable {s t : State}

theorem step_of_line {line : HostLine} (h : currentLine s = some line) : step s = runLine line.op s := by
  rw [step, hostStep, h]

/-- Settles O5: the line is a write to CMD, which performs what its byte decodes to. -/
theorem stepRunsTheDecodedCommand : Obligations.StepRunsTheDecodedCommand := by
  intro s line d i hline hop hdecode _
  obtain rfl : decodeByte (lowByte (hostData d s)) = i := congrArg Prod.fst (Except.ok.inj hdecode)
  rw [step_of_line hline, hop]
  exact memWrite_cmd _ _

/-! ### A line that reads -/

theorem hostVar_setHostVar (x y : HostVar) (v : Half) (s : State) :
    hostVar y (setHostVar x v s) = if x = y then v else hostVar y s := by
  unfold hostVar
  rw [setHostVar_vars, Memory.read_write]
  split_ifs <;> rfl

/-- What a line that reads does, where the read answers and where it faults (R61). -/
theorem runLine_read (a : Offset) (w : Nat) (x : HostVar) (s : State) :
    (∀ v, memRead a w s = .ok v → runLine (.read a w x) s = .next (setHostVar x v (advance s))) ∧
    (∀ f, memRead a w s = .error f → runLine (.read a w x) s = .fault f) := by
  constructor <;> intro _ h <;> simp only [runLine, h]

/-- Settles O18: the line assigns its variable and moves the host, and no array is touched. -/
theorem hostReadChangesNoByte : Obligations.HostReadChangesNoByte := by
  intro s line a w x hline hop
  obtain ⟨hnext, hfault⟩ := runLine_read a w x s
  rw [step_of_line hline, hop]
  refine ⟨fun v hv => ⟨_, hnext v hv, ⟨rfl, rfl, rfl⟩, rfl, rfl, rfl, ?_, fun y hy => ?_⟩, hfault⟩
  · rw [hostVar_setHostVar, if_pos rfl]
  · rw [hostVar_setHostVar, if_neg hy.symm]
    rfl

/-! ### The lines that can change a byte that the host may write -/

/-- What an offset holds depends on BUF_CAP and the three arrays alone. -/
theorem peek_of_sameBlock (h : sameBlock s t) (hcap : t.bufCap = s.bufCap) (a : Offset) : peek t a = peek s a := by
  obtain ⟨hregs, hout, hin⟩ := h
  exact peek_congr hcap (fun _ => by rw [hregs]) (fun _ _ => by rw [hout]) hin

theorem jumpTo_sameBlock {l : Label} (h : jumpTo l s = .next t) : sameBlock s t ∧ t.bufCap = s.bufCap := by
  unfold jumpTo at h
  split at h
  · obtain rfl := Host.Outcome.next.inj h
    exact ⟨⟨rfl, rfl, rfl⟩, rfl⟩
  · cases h

/-- A line that is neither a write nor the RESET event changes no byte of the block (R46, R61). -/
theorem runLine_sameBlock {op : HostOp} (hwrite : ∀ b w d, op ≠ .write b w d) (hreset : op ≠ .resetEvent)
    (h : runLine op s = .next t) : sameBlock s t ∧ t.bufCap = s.bufCap := by
  cases op with
  | write b w d => exact absurd rfl (hwrite b w d)
  | read a w x =>
    obtain ⟨hnext, hfault⟩ := runLine_read a w x s
    cases hr : memRead a w s with
    | error f => cases (hfault f hr).symm.trans h
    | ok v =>
      obtain rfl := Host.Outcome.next.inj ((hnext v hr).symm.trans h)
      exact ⟨⟨rfl, rfl, rfl⟩, rfl⟩
  | bne x v l =>
    unfold runLine at h
    dsimp only at h
    split at h
    · exact jumpTo_sameBlock h
    · obtain rfl := Host.Outcome.next.inj h
      exact ⟨⟨rfl, rfl, rfl⟩, rfl⟩
  | jmp l => exact jumpTo_sameBlock h
  | halt =>
    obtain rfl := Host.Outcome.next.inj h
    exact ⟨⟨rfl, rfl, rfl⟩, rfl⟩
  | resetEvent => exact absurd rfl hreset

/-- The bytes the host may write are among no command's results (R34, R38). -/
theorem not_hostReadOnly_of_hostWritable {cap : Nat} {a : Offset} (h : hostWritable cap a) : ¬ hostReadOnly a := by
  unfold hostWritable at h
  unfold hostReadOnly
  omega

/-- No command changes a byte that the host may write (R38, R68, R75, R87). -/
theorem exec_peek_writable {i : Instr} {a : Offset} (ha : hostWritable s.bufCap a) (h : exec i s = .next t) :
    peek t a = peek s a := by
  have hro := not_hostReadOnly_of_hostWritable ha
  exact exec_peek h (fun e => hro (.inl e)) (fun _ hp => hro (packWrites_readOnly hp))
    (fun _ hu => hro (unpackWrites_readOnly hu))

/-- A store that changes a byte covers it, and begins at an offset that the host may write (R42). -/
theorem memStore_changes {a b : Offset} {w : Nat} {v : Half} (h : memStore b w v s = .ok t)
    (hne : peek t a ≠ peek s a) : hostWritable s.bufCap b ∧ (a = b ∨ (w = 2 ∧ a = b + 1)) := by
  by_cases h1 : w = 1
  · subst h1
    rw [memStore_one] at h
    obtain ⟨hb, -, hrest, -⟩ := storeByte_inv h
    exact ⟨hb, .inl (by_contra fun hab => hne (hrest a hab))⟩
  · by_cases h2 : w = 2
    · subst h2
      obtain ⟨-, s1, hlo, hhi⟩ := memStore_two_ok_iff.1 h
      obtain ⟨hb, -, hrest, -⟩ := storeByte_inv hlo
      obtain ⟨-, -, hrest1, -⟩ := storeByte_inv hhi
      refine ⟨hb, or_iff_not_imp_left.2 fun hab => ⟨rfl, by_contra fun hab1 => hne ?_⟩⟩
      rw [hrest1 a hab1, hrest a hab]
    · rw [memStore_other_width h1 h2] at h
      cases h

/-- A write that changes a byte which the host may write covers it, and is none to CMD (R38, R42). -/
theorem memWrite_changes_writable {a b : Offset} {w : Nat} {v : Half} (ha : hostWritable s.bufCap a)
    (h : memWrite b w v s = .next t) (hne : peek t a ≠ peek s a) :
    b.toNat ≠ 0 ∧ (a = b ∨ (w = 2 ∧ a = b + 1)) := by
  by_cases hcmd : w = 1 ∧ b = 0
  · obtain ⟨rfl, rfl⟩ := hcmd
    rw [memWrite_cmd] at h
    exact absurd (exec_peek_writable ha h) hne
  · obtain ⟨hb, hcover⟩ := memStore_changes ((memWrite_next_iff hcmd).1 h) hne
    exact ⟨fun e => ne_zero_of_hostWritable hb (BitVec.eq_of_toNat_eq e), hcover⟩

theorem runLine_changes_writable {op : HostOp} {a : Offset} (ha : hostWritable s.bufCap a)
    (h : runLine op s = .next t) (hne : peek t a ≠ peek s a) :
    op = .resetEvent ∨ ∃ b w d, op = .write b w d ∧ b.toNat ≠ 0 ∧ (a = b ∨ (w = 2 ∧ a = b + 1)) := by
  by_cases hwrite : ∃ b w d, op = .write b w d
  · obtain ⟨b, w, d, rfl⟩ := hwrite
    exact .inr ⟨b, w, d, rfl, memWrite_changes_writable (s := advance s) ha h hne⟩
  · refine .inl (by_contra fun hreset => hne ?_)
    obtain ⟨hblock, hcap⟩ := runLine_sameBlock (fun b w d e => hwrite ⟨b, w, d, e⟩) hreset h
    exact peek_of_sameBlock hblock hcap a

/-- Settles O20, by what a line that changes a byte which the host may write can be. -/
theorem inputsChangeOnlyByHostWrites : Obligations.InputsChangeOnlyByHostWrites := by
  intro s t a ha hstep hne
  cases hline : currentLine s with
  | none =>
    rw [step, hostStep, hline] at hstep
    obtain rfl := Host.Outcome.next.inj hstep
    exact absurd rfl hne
  | some line =>
    rw [step_of_line hline] at hstep
    exact ⟨line, rfl, runLine_changes_writable ha hstep hne⟩

end Sys2Proof.Machine
end

section
/-! PROOF of O1, O2, O3 and O4. A command byte is its fields RSV and OP side by side, so ILLEGAL, which keeps both, loses
no bit; and a well-formed ILLEGAL is none of the two bytes that encode a command. -/

namespace Sys2Proof

/-- Settles O1, byte by byte. -/
theorem commandBytesDecode : Obligations.CommandBytesDecode :=
  ⟨rfl, rfl, rfl, rfl, rfl, rfl, rfl, rfl⟩

/-- The three arms of R54, each with the bytes that take it. -/
theorem decodeByte_cases (v : Byte) :
    (v = 0x01#8 ∧ decodeByte v = .pack) ∨ (v = 0x02#8 ∧ decodeByte v = .unpack) ∨
      (v ≠ 0x01#8 ∧ v ≠ 0x02#8 ∧ decodeByte v = .illegal (cmdOp v) (cmdRsv v)) := by
  by_cases h1 : v = 0x01#8
  · exact .inl ⟨h1, by rw [decodeByte, if_pos h1]⟩
  · by_cases h2 : v = 0x02#8
    · exact .inr (.inl ⟨h2, by rw [decodeByte, if_neg h1, if_pos h2]⟩)
    · exact .inr (.inr ⟨h1, h2, by rw [decodeByte, if_neg h1, if_neg h2]⟩)

/-- Settles O2, by the three arms of the decoder. -/
theorem everyByteIsOneCommand : Obligations.EveryByteIsOneCommand := by
  intro v rest
  refine ⟨decodeByte v, rfl, Laws.OneByte.decodeByte_wellFormed v, ?_⟩
  obtain ⟨rfl, h⟩ | ⟨rfl, h⟩ | ⟨h1, h2, h⟩ := decodeByte_cases v
  · simp [h]
  · simp [h]
  · simp [h, h1, h2]

/-! ### The fields of a byte, and the bytes of fields (R53) -/

@[simp] theorem cmdOp_append (rsv op : BitVec 4) : cmdOp (rsv ++ op) = op := BitVec.extractLsb'_append_eq_right

@[simp] theorem cmdRsv_append (rsv op : BitVec 4) : cmdRsv (rsv ++ op) = rsv := BitVec.extractLsb'_append_eq_left

@[simp] theorem cmdRsv_append_cmdOp (v : Byte) : cmdRsv v ++ cmdOp v = v := BitVec.extractLsb'_append_extractLsb'

theorem append_eq_byte_iff {rsv op : BitVec 4} {v : Byte} : rsv ++ op = v ↔ rsv = cmdRsv v ∧ op = cmdOp v := by
  constructor
  · rintro rfl; simp
  · rintro ⟨rfl, rfl⟩; simp

/-- A well-formed ILLEGAL's byte is none that encodes a command (R54). -/
theorem wellFormed_illegal_iff {op rsv : BitVec 4} :
    (Instr.illegal op rsv).wellFormed = true ↔ rsv ++ op ≠ 0x01#8 ∧ rsv ++ op ≠ 0x02#8 := by
  have hone : rsv ++ op = 0x01#8 ↔ rsv = 0 ∧ op = 1 := append_eq_byte_iff
  have htwo : rsv ++ op = 0x02#8 ↔ rsv = 0 ∧ op = 2 := append_eq_byte_iff
  rw [ne_eq, ne_eq, hone, htwo]
  simp only [Instr.wellFormed, Bool.not_eq_true', Bool.and_eq_false_iff, Bool.or_eq_false_iff, beq_eq_false_iff_ne]
  tauto

/-! ### Decoding and encoding undo each other -/

theorem encodeByte_decodeByte (v : Byte) : encodeByte (decodeByte v) = v := by
  obtain ⟨rfl, h⟩ | ⟨rfl, h⟩ | ⟨-, -, h⟩ := decodeByte_cases v
  · rw [h, encodeByte]
  · rw [h, encodeByte]
  · rw [h, encodeByte, cmdRsv_append_cmdOp]

theorem decodeByte_encodeByte {i : Instr} (h : i.wellFormed = true) : decodeByte (encodeByte i) = i := by
  cases i with
  | pack => rfl
  | unpack => rfl
  | illegal op rsv =>
    obtain ⟨h1, h2⟩ := wellFormed_illegal_iff.1 h
    rw [encodeByte, decodeByte, if_neg h1, if_neg h2, cmdOp_append, cmdRsv_append]

/-- Settles O3: the byte of a well-formed instruction takes the instruction's own arm of the decoder. -/
theorem decodeOfEncodeIsTheInstruction : Obligations.DecodeOfEncodeIsTheInstruction := by
  intro i rest h
  rw [encode, List.singleton_append, decode, decodeByte_encodeByte h]

/-- Settles O4: whichever arm the byte takes, its encoding is the byte. -/
theorem encodeOfDecodeIsTheByte : Obligations.EncodeOfDecodeIsTheByte := by
  intro v rest left i h
  obtain ⟨rfl, rfl⟩ := Prod.mk.inj (Except.ok.inj h)
  rw [encode, encodeByte_decodeByte]
  exact ⟨rfl, rfl⟩

end Sys2Proof
end

section
/-! PROOF of O16 and O30. What each byte written to CMD performs, and header byte 0 as shifts and masks of its fields. -/

namespace Sys2Proof.Machine

variable {s t : State}

/-- IllegalCommand answers, with STATUS 0x38 and every other byte as before, whatever the byte's fields (R87). -/
theorem exec_illegal_status (op rsv : BitVec 4) (s : State) :
    ∃ t, exec (.illegal op rsv) s = .next t ∧ statusIs t 0x38#8 ∧
      ∀ a : Offset, a.toNat ≠ 0x01 → peek t a = peek s a := by
  have h : exec (.illegal op rsv) s = .next (raiseFail .noCommand .illegalCommand s) := exec_illegal_next.2 rfl
  exact ⟨_, h, exec_illegal_outcome h, fun a ha => exec_peek h ha (by simp) (by simp)⟩

/-- Settles O16, by the three arms of the decoder. -/
theorem writeToCmdPerformsTheCommand : Obligations.WriteToCmdPerformsTheCommand := by
  intro s v
  rw [memWrite_cmd]
  refine ⟨fun h => by rw [h]; rfl, fun h => by rw [h]; rfl, fun h1 h2 => ?_⟩
  rw [decodeByte, if_neg h1, if_neg h2]
  exact exec_illegal_status _ _ _

/-! ### Header byte 0 (R55, R64) -/

theorem headerByte0_eq_shifts (ver : BitVec 2) (c : BitVec 1) (hlen : BitVec 5) :
    headerByte0 ver c hlen =
      (ver.setWidth 8 <<< 6) ||| (if c = 1#1 then 0x20#8 else 0x00#8) ||| (hlen.setWidth 8 &&& 0x1F#8) := by
  revert ver c hlen; decide

theorem versionOf_eq_shift (b : Byte) : (versionOf b).setWidth 8 = b >>> 6 := by revert b; decide

theorem controlOf_eq_one_iff (b : Byte) : controlOf b = 1#1 ↔ b &&& 0x20#8 ≠ 0 := by revert b; decide

theorem headerLenOf_eq_mask (b : Byte) : (headerLenOf b).setWidth 8 = b &&& 0x1F#8 := by revert b; decide

/-- hlen cut to its 5 bits, as the mask of R64 has it. -/
theorem hlen_mask (h : Nat) : (BitVec.ofNat 5 h).setWidth 8 &&& 0x1F#8 = BitVec.ofNat 8 h &&& 0x1F#8 := by
  have hcut : headerLenOf (BitVec.ofNat 8 h) = BitVec.ofNat 5 h := by
    rw [headerLenOf, ← BitVec.setWidth_eq_extractLsb' (by omega), BitVec.setWidth_ofNat_of_le (by omega)]
  rw [← hcut, headerLenOf_eq_mask, BitVec.and_assoc, BitVec.and_self]

/-- What a PACK that succeeds leaves in OUT[0] (R62, R64). -/
theorem exec_pack_out_zero {n ver c : Half} (h : exec .pack s = .next t) (hstatus : statusIs t 0x11#8)
    (hn : readReg .inLen s = some n) (hver : readReg .hVersion s = some ver) (hc : readReg .hC s = some c) :
    Memory.read t.out 0 =
      some (headerByte0 (ver.extractLsb' 0 2) (c.extractLsb' 0 1) (BitVec.ofNat 5 (hlenOf n.toNat))) := by
  obtain ⟨n', ver', c', proto, flags, hn', -, hver', hc', -, -, ⟨-, rfl⟩ | ⟨-, ext, hl, -, rfl⟩⟩ := execPack_cases h
  · exact absurd (statusIs_unique hstatus (raiseFail_statusIs ..)) (by decide)
  · obtain rfl := Option.some.inj (hn.symm.trans hn')
    obtain rfl := Option.some.inj (hver.symm.trans hver')
    obtain rfl := Option.some.inj (hc.symm.trans hc')
    rw [packDone_out, Memory.read_ofBytes_zero, ← hl]
    rfl

/-- Settles O30: byte 0 as the source's shifts and masks, and PACK's byte 0 as that of its operands. -/
theorem headerByteZeroIsItsThreeFields : Obligations.HeaderByteZeroIsItsThreeFields := by
  refine ⟨headerByte0_eq_shifts, fun b => ⟨versionOf_eq_shift b, controlOf_eq_one_iff b, headerLenOf_eq_mask b⟩, ?_⟩
  intro s t n ver c h hstatus hn hver hc
  rw [exec_pack_out_zero h hstatus hn hver hc, headerByte0_eq_shifts, hlen_mask]
  rfl

end Sys2Proof.Machine
end

section
/-! PROOF of O6, O7, O8, O56 and O57. The host's script: what its lines do to the host, that a script whose labels are
defined is never refused, and where a label of a script as written ends up. -/

namespace Sys2Proof.Machine

variable {i : Instr} {s : State}

/-- Settles O56: a step is its line, and the line is the write. -/
theorem stepPerformsTheHostWrite : Obligations.StepPerformsTheHostWrite := by
  intro s line a w d hline hop
  rw [step_of_line hline, hop]
  rfl

/-! ### A placed command -/

theorem currentLine_withFetchWord (s : State) (nbits w : Nat) :
    currentLine (s.withFetchWord nbits w) = some (commandLine nbits w) :=
  placeLine_getElem? _ _ _

/-- The byte that a placed line of an 8-bit command writes to CMD (R53). -/
theorem lowByte_placed_word (w : Nat) : lowByte (BitVec.ofNat 16 (w % 2 ^ 8 % 256)) = BitVec.ofNat 8 w := by
  apply BitVec.eq_of_toNat_eq
  rw [lowByte_toNat, BitVec.toNat_ofNat, BitVec.toNat_ofNat]
  omega

/-- Settles O6: the line at the host's position is the placed one, and it writes the command's byte to CMD. -/
theorem placedCommandIsPerformedNext : Obligations.PlacedCommandIsPerformedNext := by
  intro s w
  refine ⟨?_, rfl, rfl, rfl⟩
  have hwrite := stepPerformsTheHostWrite _ _ 0 1 _ (currentLine_withFetchWord s 8 w) rfl
  rw [hwrite, memWrite_cmd, hostData, lowByte_placed_word]

/-! ### Branches -/

theorem jumpTo_of_labelPos {l : Label} {p : Nat} (h : labelPos l s.script = some p) :
    jumpTo l s = .next { s with pos := p } := by
  rw [jumpTo, h]

/-- Settles O7, by what each of the three lines does. -/
theorem hostBranchesMoveOnlyTheHost : Obligations.HostBranchesMoveOnlyTheHost := by
  intro s line hline
  refine ⟨fun x v l hop => ?bne, fun l p hop hl => ?jmp, fun hop => ?halt⟩ <;> rw [step_of_line hline, hop]
  case bne =>
    rw [runLine]
    exact ⟨fun heq => if_neg (not_not.2 heq), fun p hne hl => by rw [if_pos hne, jumpTo_of_labelPos hl]⟩
  case jmp => exact jumpTo_of_labelPos hl
  case halt => rfl

/-! ### What is never refused -/

/-- The answer is a next state or a model fault. -/
def NeverRefused (x : Answer) : Prop := ∀ r, x ≠ .refused r

theorem neverRefused_next (t : State) : NeverRefused (.next t) := fun _ h => nomatch h

theorem neverRefused_fault (f : Fault) : NeverRefused (.fault f) := fun _ h => nomatch h

/-! An operand read refuses nothing where what goes on with its value refuses nothing. -/

theorem needReg_neverRefused {r : Reg} {k : Half → Answer} (hk : ∀ v, NeverRefused (k v)) :
    NeverRefused (needReg i r s k) := by
  cases h : readReg r s with
  | none => rw [needReg_of_none h]; exact neverRefused_fault _
  | some v => rw [needReg_of_some h]; exact hk v

theorem needIn_neverRefused {j : Nat} {k : Byte → Answer} (hk : ∀ b, NeverRefused (k b)) :
    NeverRefused (needIn i j s k) := by
  cases h : Memory.read s.inBuf j with
  | none => rw [needIn_of_none h]; exact neverRefused_fault _
  | some b => rw [needIn_of_some h]; exact hk b

theorem needInRange_neverRefused {j n : Nat} {k : List Byte → Answer} (hk : ∀ bs, NeverRefused (k bs)) :
    NeverRefused (needInRange i j n s k) := by
  induction n generalizing j k with
  | zero => exact hk []
  | succ n ih => exact needIn_neverRefused fun b => ih fun bs => hk (b :: bs)

theorem needLength_neverRefused {k : Nat → Answer} (hk : ∀ n, NeverRefused (k n)) :
    NeverRefused (needLength i s k) := by
  refine needReg_neverRefused fun n => ?_
  split
  · exact neverRefused_fault _
  · exact hk _

theorem execPack_neverRefused (s : State) : NeverRefused (execPack s) := by
  refine needLength_neverRefused fun n => needReg_neverRefused fun ver => needReg_neverRefused fun c =>
    needReg_neverRefused fun proto => needReg_neverRefused fun flags => ?_
  split
  · exact neverRefused_next _
  · exact needInRange_neverRefused fun ext => neverRefused_next _

theorem execUnpack_neverRefused (s : State) : NeverRefused (execUnpack s) := by
  refine needLength_neverRefused fun n => ?_
  split
  · exact neverRefused_next _
  · refine needIn_neverRefused fun b0 => needIn_neverRefused fun b1 => needIn_neverRefused fun b2 =>
      needIn_neverRefused fun b3 => ?_
    split
    · exact neverRefused_next _
    · split <;> exact neverRefused_next _

theorem exec_neverRefused (i : Instr) (s : State) : NeverRefused (exec i s) := by
  cases i with
  | pack => exact execPack_neverRefused s
  | unpack => exact execUnpack_neverRefused s
  | illegal op rsv => exact neverRefused_next _

theorem memWrite_neverRefused (a : Offset) (w : Nat) (v : Half) (s : State) : NeverRefused (memWrite a w v s) := by
  by_cases hcmd : w = 1 ∧ a = 0
  · obtain ⟨rfl, rfl⟩ := hcmd
    rw [memWrite_cmd]
    exact exec_neverRefused _ _
  · rw [memWrite_of_store hcmd]
    cases memStore a w v s with
    | ok t => exact neverRefused_next t
    | error f => exact neverRefused_fault f

theorem jumpTo_neverRefused {l : Label} (h : (labelPos l s.script).isSome = true) : NeverRefused (jumpTo l s) := by
  obtain ⟨p, hp⟩ := Option.isSome_iff_exists.1 h
  rw [jumpTo_of_labelPos hp]
  exact neverRefused_next _

/-- A line is refused only where it jumps to a label that no line bears (log 10). -/
theorem runLine_neverRefused {line : HostLine} (h : targetDefined s.script line = true) :
    NeverRefused (runLine line.op s) := by
  unfold targetDefined at h
  cases hop : line.op with
  | write a w d => exact memWrite_neverRefused _ _ _ _
  | read a w x =>
    obtain ⟨hnext, hfault⟩ := runLine_read a w x s
    cases hr : memRead a w s with
    | ok v => rw [hnext v hr]; exact neverRefused_next _
    | error f => rw [hfault f hr]; exact neverRefused_fault f
  | bne x v l =>
    rw [hop] at h
    rw [runLine]
    split
    · exact jumpTo_neverRefused h
    · exact neverRefused_next _
  | jmp l =>
    rw [hop] at h
    exact jumpTo_neverRefused h
  | halt => exact neverRefused_next _
  | resetEvent => exact neverRefused_next _

theorem targetDefined_of_currentLine {line : HostLine} (hwf : scriptWellFormed s.script = true)
    (h : currentLine s = some line) : targetDefined s.script line = true :=
  List.all_eq_true.1 (Bool.and_eq_true_iff.1 hwf).1 line (List.mem_of_getElem? h)

/-- Settles O8: the one refusal is an undefined label, and a command meets none. -/
theorem nothingWellFormedIsRefused : Obligations.NothingWellFormedIsRefused := by
  refine fun s r => ⟨fun hwf => ?_, fun i => exec_neverRefused i s r⟩
  cases hline : currentLine s with
  | none =>
    rw [step, hostStep, hline]
    exact neverRefused_next s r
  | some line =>
    rw [step_of_line hline]
    exact runLine_neverRefused (targetDefined_of_currentLine hwf hline) r

/-! ### A script as written -/

/-- The primitive lines are the expansions, with a HALT after them where labels still wait for a line. -/
theorem assembleFrom_ops (pending : List Label) (script : List (List Label × ScriptOp)) :
    ∃ tail, (tail = [] ∨ tail = [HostOp.halt]) ∧
      (assembleFrom pending script).map HostLine.op = script.flatMap (fun x => expand x.2) ++ tail := by
  induction script generalizing pending with
  | nil =>
    by_cases h : pending = []
    · exact ⟨[], .inl rfl, by simp [assembleFrom, h]⟩
    · exact ⟨[.halt], .inr rfl, by simp [assembleFrom, h]⟩
  | cons x rest ih =>
    obtain ⟨ls, op⟩ := x
    cases hexp : expand op with
    | nil =>
      obtain ⟨tail, htail, hrest⟩ := ih (pending ++ ls)
      exact ⟨tail, htail, by rw [assembleFrom_of_empty hexp, hrest]; simp [hexp]⟩
    | cons first more =>
      obtain ⟨tail, htail, hrest⟩ := ih []
      exact ⟨tail, htail, by rw [assembleFrom_of_cons hexp]; simp [hexp, hrest, Function.comp_def]⟩

/-- A label that waits for a line is borne by the first line that comes. -/
theorem labelPos_assembleFrom_pending {l : Label} {pending : List Label} (hl : l ∈ pending)
    (script : List (List Label × ScriptOp)) : labelPos l (assembleFrom pending script) = some 0 := by
  induction script generalizing pending with
  | nil =>
    rw [assembleFrom, if_neg (List.ne_nil_of_mem hl), labelPos_cons, if_pos hl]
  | cons x rest ih =>
    obtain ⟨ls, op⟩ := x
    have hmem : l ∈ pending ++ ls := List.mem_append_left ls hl
    cases hexp : expand op with
    | nil =>
      rw [assembleFrom_of_empty hexp]
      exact ih hmem
    | cons first more => rw [assembleFrom_of_cons hexp, labelPos_cons, if_pos hmem]

/-- A line that does not bear the label, and for which it does not wait, moves the label's position by its expansion's
length. -/
theorem labelPos_assembleFrom_cons {l : Label} {pending ls : List Label} (hpending : l ∉ pending) (hls : l ∉ ls)
    (op : ScriptOp) (rest : List (List Label × ScriptOp)) :
    ∃ waiting, l ∉ waiting ∧ labelPos l (assembleFrom pending ((ls, op) :: rest)) =
      (labelPos l (assembleFrom waiting rest)).map (· + (expand op).length) := by
  have hnot : l ∉ pending ++ ls := by simp [hpending, hls]
  cases hexp : expand op with
  | nil => exact ⟨pending ++ ls, hnot, by rw [assembleFrom_of_empty hexp]; simp⟩
  | cons first more =>
    refine ⟨[], by simp, ?_⟩
    rw [assembleFrom_of_cons hexp, labelPos_cons, if_neg hnot, labelPos_unlabelled, Option.map_map]
    rfl

theorem labelPos_assembleFrom_append {l : Label} {pending ls : List Label} (hpending : l ∉ pending) (hls : l ∈ ls)
    {before : List (List Label × ScriptOp)} (hbefore : ∀ x ∈ before, l ∉ x.1) (op : ScriptOp)
    (after : List (List Label × ScriptOp)) :
    labelPos l (assembleFrom pending (before ++ (ls, op) :: after)) =
      some (before.flatMap (fun x => expand x.2)).length := by
  induction before generalizing pending with
  | nil =>
    have hmem : l ∈ pending ++ ls := List.mem_append_right pending hls
    cases hexp : expand op with
    | nil =>
      rw [List.nil_append, assembleFrom_of_empty hexp]
      exact labelPos_assembleFrom_pending hmem after
    | cons first more =>
      rw [List.nil_append, assembleFrom_of_cons hexp, labelPos_cons, if_pos hmem]
      rfl
  | cons x more ih =>
    obtain ⟨hx, hmore⟩ := List.forall_mem_cons.1 hbefore
    obtain ⟨waiting, hwaiting, hpos⟩ := labelPos_assembleFrom_cons hpending hx x.2 (more ++ (ls, op) :: after)
    rw [List.cons_append, hpos, ih hwaiting hmore, Option.map_some, List.flatMap_cons, List.length_append, Nat.add_comm]

/-- Settles O57, by induction over the script's lines, with the labels that wait for a line. -/
theorem labelsNameWhereTheirLinesExpand : Obligations.LabelsNameWhereTheirLinesExpand :=
  ⟨assembleFrom_ops [], fun _ after _ op _ hls hbefore =>
    labelPos_assembleFrom_append List.not_mem_nil hls hbefore op after⟩

end Sys2Proof.Machine
end

section
/-! PROOF of O24, O26, O27, O28, O29 and O31. PACK on prepared operands is one of two equations, decided by IN_LEN
alone: the typed failure, or the packed bytes of IN. -/

namespace Sys2Proof.Machine

variable {s t u : State}

/-- Settles O31: (n + 3) div 4 rounds up, and a value of at most 31 fits 5 bits. -/
theorem hlenIsTheExactCeiling : Obligations.HlenIsTheExactCeiling := by
  intro n
  refine ⟨by unfold hlenOf; omega, by unfold hlenOf; omega, fun h => ?_⟩
  rw [BitVec.toNat_ofNat]
  exact Nat.mod_eq_of_lt (by omega)

/-! ### The two answers of a prepared PACK -/

/-- More than 124 extension bytes make PACK fail, whatever IN holds (R62, R86). -/
theorem exec_pack_of_long {n ver c proto flags : Half} (h : packInputs s n ver c proto flags)
    (hcap : n.toNat ≤ s.bufCap) (hlong : 124 < n.toNat) :
    exec .pack s = .next (raiseFail .pack .extensionTooLarge s) := by
  have hle := hlenOf_le_iff n.toNat
  rw [exec_pack_of_inputs h hcap, if_pos (by omega)]

/-- Past the length check, what is left of PACK is to read IN[0..n-1] (R62). -/
theorem exec_pack_of_fits {n ver c proto flags : Half} (h : packInputs s n ver c proto flags)
    (hcap : n.toNat ≤ s.bufCap) (hfits : n.toNat ≤ 124) :
    exec .pack s = needInRange .pack 0 n.toNat s (fun ext =>
      .next (packDone (ver.extractLsb' 0 2) (c.extractLsb' 0 1) (lowByte proto) flags ext s)) := by
  have hle := hlenOf_le_iff n.toNat
  rw [exec_pack_of_inputs h hcap, if_neg (by omega)]

/-- Where IN[0..n-1] hold the bytes `ext`, PACK succeeds with these as the extension (R62). -/
theorem exec_pack_of_bytes {n ver c proto flags : Half} {ext : List Byte} (h : packInputs s n ver c proto flags)
    (hcap : n.toNat ≤ s.bufCap) (hfits : n.toNat ≤ 124) (hlen : ext.length = n.toNat)
    (hext : ∀ x, x < n.toNat → Memory.read s.inBuf x = ext[x]?) :
    exec .pack s =
      .next (packDone (ver.extractLsb' 0 2) (c.extractLsb' 0 1) (lowByte proto) flags ext s) := by
  rw [exec_pack_of_fits h hcap hfits, needInRange_of_bytes hlen (by simpa using hext)]

/-- Written bytes of IN are a list of bytes. -/
theorem inWritten_iff_bytes (n : Nat) :
    inWritten s n ↔ ∃ ext : List Byte, ext.length = n ∧ ∀ x, x < n → Memory.read s.inBuf x = ext[x]? := by
  constructor
  · intro h
    simpa using inRange_exists (j := 0) fun x hx => by simpa using h x hx
  · rintro ⟨ext, hlen, hext⟩ x hx
    exact ⟨ext[x], by rw [hext x hx, List.getElem?_eq_getElem]⟩

/-! ### What a PACK leaves -/

/-- Settles O24: PACK succeeds with the bytes of IN, and its output is their header and the padded extension. -/
theorem packBuildsTheWireBytes : Obligations.PackBuildsTheWireBytes := by
  intro s n ver c proto flags h hcap hfits hin
  obtain ⟨ext, hlen, hext⟩ := (inWritten_iff_bytes _).1 hin
  obtain ⟨-, hPHlen, hOutLen, -⟩ := packDone_packHolds (ver.extractLsb' 0 2) (c.extractLsb' 0 1) (lowByte proto) flags
    (hlen.trans_le hfits) s
  refine ⟨_, exec_pack_of_bytes h hcap hfits hlen hext, packDone_statusIs .., ?_⟩
  simp only [packDone_out, Memory.read_ofBytes_zero, packBytes_extension, ← hlen] at hext ⊢
  refine ⟨hOutLen, hPHlen, rfl, rfl, rfl, rfl, fun i hi => ?_, fun i hi hpad => ?_, fun j hj => ?_⟩
  · rw [if_pos hi, hext i hi]
  · rw [if_neg (Nat.not_lt.2 hi)]
    exact if_pos hpad
  · rw [List.getElem?_eq_none]
    rwa [packBytes_length]

/-- Settles O26, by the two cases of a PACK that answers. -/
theorem packFailsOnNothingButLength : Obligations.PackFailsOnNothingButLength := by
  intro s t n h hn
  obtain ⟨n', ver, c, proto, flags, hn', -, -, -, -, -, hcases⟩ := execPack_cases h
  obtain rfl := Option.some.inj (hn.symm.trans hn')
  obtain ⟨hlong, rfl⟩ | ⟨hfits, ext, -, -, rfl⟩ := hcases
  · exact .inr ⟨raiseFail_statusIs .pack .extensionTooLarge s, hlong⟩
  · exact .inl ⟨packDone_statusIs .., hfits⟩

/-- Settles O28: prepared operands lead to one of the two answers, and either answer needs them. -/
theorem packAnswersExactlyWhenPrepared : Obligations.PackAnswersExactlyWhenPrepared := by
  intro s
  constructor
  · rintro ⟨t, h⟩
    obtain ⟨n, ver, c, proto, flags, hn, hcap, hv, hc, hp, hf, hcases⟩ := execPack_cases h
    refine ⟨n, ver, c, proto, flags, ⟨hn, hv, hc, hp, hf⟩, hcap, fun hfits => ?_⟩
    obtain ⟨hlong, -⟩ | ⟨-, ext, hlen, hext, -⟩ := hcases
    · omega
    · exact (inWritten_iff_bytes _).2 ⟨ext, hlen, hext⟩
  · rintro ⟨n, ver, c, proto, flags, h, hcap, hin⟩
    by_cases hfits : n.toNat ≤ 124
    · obtain ⟨ext, hlen, hext⟩ := (inWritten_iff_bytes _).1 (hin hfits)
      exact ⟨_, exec_pack_of_bytes h hcap hfits hlen hext⟩
    · exact ⟨_, exec_pack_of_long h hcap (by omega)⟩

/-- Settles O29: each operand read faults, or PACK goes on to the next (R89). -/
theorem packFaultsInOrder : Obligations.PackFaultsInOrder := by
  intro s
  have hpack : exec .pack s = execPack s := rfl
  rw [execPack] at hpack
  refine ⟨fun h => hpack.trans (needLength_of_none h), fun n hn =>
    ⟨fun h => hpack.trans (needLength_of_large hn h), fun hcap => ?_⟩⟩
  rw [needLength_of_fits hn hcap] at hpack
  refine ⟨fun h => hpack.trans (needReg_of_none h), fun ver hv => ?_⟩
  rw [needReg_of_some hv] at hpack
  refine ⟨fun h => hpack.trans (needReg_of_none h), fun c hc => ?_⟩
  rw [needReg_of_some hc] at hpack
  refine ⟨fun h => hpack.trans (needReg_of_none h), fun p hp => ?_⟩
  rw [needReg_of_some hp] at hpack
  refine ⟨fun h => hpack.trans (needReg_of_none h), fun f m hf hfits hm hw hu => ?_⟩
  have hwritten : ∀ x, x < m → ∃ b, Memory.read s.inBuf (0 + x) = some b := fun x hx => by simpa using hw x hx
  rw [exec_pack_of_fits ⟨hn, hv, hc, hp, hf⟩ hcap hfits, needInRange_fault hm hwritten (by rwa [Nat.zero_add]),
    Nat.zero_add]

/-! ### The outputs depend on the host-written bytes alone -/

/-- The operand registers are host-written (R62, register map). -/
theorem operandRegs_covers_writable {r : Reg} {a : Nat} (hr : r ∈ operandRegs) (h : r.covers a = true) :
    (0x02 ≤ a ∧ a ≤ 0x04) ∨ (0x06 ≤ a ∧ a ≤ 0x09) := by
  rw [Reg.covers_iff] at h
  simp only [operandRegs, List.mem_cons, List.not_mem_nil, or_false] at hr
  rcases hr with rfl | rfl | rfl | rfl | rfl <;> simp only [Reg.row] at h <;> omega

section
variable (h : ∀ a : Offset, hostWritable s.bufCap a → peek u a = peek s a)
include h

theorem readReg_operand_of_peek {r : Reg} (hr : r ∈ operandRegs) : readReg r u = readReg r s := by
  refine readReg_congr r fun a ha => ?_
  have hrange := operandRegs_covers_writable hr ha
  have hoff : (BitVec.ofNat 32 a).toNat = a := by rw [BitVec.toNat_ofNat]; omega
  have hpeek := h (BitVec.ofNat 32 a) (by unfold hostWritable; omega)
  rwa [peek_reg u (by omega), peek_reg s (by omega), hoff] at hpeek

theorem packInputs_of_peek {n ver c proto flags : Half} (hs : packInputs s n ver c proto flags) :
    packInputs u n ver c proto flags := by
  have hreg : ∀ r ∈ operandRegs, readReg r u = readReg r s := fun r hr => readReg_operand_of_peek h hr
  unfold packInputs
  rwa [hreg .inLen (by decide), hreg .hVersion (by decide), hreg .hC (by decide), hreg .hProtocol (by decide),
    hreg .hFlags (by decide)]

/-- A byte of IN that some offset of the 32-bit host space maps to (R38). -/
theorem read_inBuf_of_peek (hcap : u.bufCap = s.bufCap) {j : Nat} (hj : j < s.bufCap) (hspace : 0x10000 + j < 2 ^ 32) :
    Memory.read u.inBuf j = Memory.read s.inBuf j := by
  have hoff : (BitVec.ofNat 32 (0x10000 + j)).toNat = 0x10000 + j := by
    rw [BitVec.toNat_ofNat]; exact Nat.mod_eq_of_lt hspace
  have hpeek := h (BitVec.ofNat 32 (0x10000 + j)) (by unfold hostWritable; omega)
  rwa [peek_inp (by omega) (by omega), peek_inp (by omega) (by omega), hoff, Nat.add_sub_cancel_left] at hpeek

end

/-- PACK's outputs agree by offset where their bytes and OUT agree. -/
theorem peek_packWrites_congr {a : Offset} (ha : packWrites a) (hout : u.out = t.out)
    (hregs : ∀ b, b = 0x01 ∨ (0x0A ≤ b ∧ b ≤ 0x0C) → Memory.read u.regs b = Memory.read t.regs b) :
    peek u a = peek t a := by
  unfold packWrites at ha
  by_cases hreg : a.toNat < 0x40
  · rw [peek_reg u hreg, peek_reg t hreg, hregs _ (by omega)]
  · rw [peek_out u (by omega) (by omega), peek_out t (by omega) (by omega), hout]

/-- Whatever state the typed failure of PACK meets, it leaves the same outputs (R83, R88). -/
theorem raiseFail_pack_peek (f : Failure) (s u : State) {a : Offset} (ha : packWrites a) :
    peek (raiseFail .pack f u) a = peek (raiseFail .pack f s) a := by
  refine peek_packWrites_congr ha rfl fun b hb => ?_
  rw [raiseFail_read_regs, raiseFail_read_regs]
  obtain rfl | hb := hb
  · rfl
  · simp only [hb, and_self, if_true]

/-- Whatever state a PACK that succeeds meets, it leaves the same outputs (R62). -/
theorem packDone_peek (ver : BitVec 2) (c : BitVec 1) (proto : Byte) (flags : Half) (ext : List Byte) (s u : State)
    {a : Offset} (ha : packWrites a) :
    peek (packDone ver c proto flags ext u) a = peek (packDone ver c proto flags ext s) a := by
  refine peek_packWrites_congr ha (by simp) fun b hb => ?_
  rw [packDone_read_regs, packDone_read_regs]
  have hb : b = 0x01 ∨ b = 0x0A ∨ b = 0x0B ∨ b = 0x0C := by omega
  rcases hb with rfl | rfl | rfl | rfl <;> rfl

/-- R68: a PACK of a state with the same BUF_CAP and host-written bytes answers, with the same outputs. -/
theorem exec_pack_of_same_inputs (h : exec .pack s = .next t) (hcap : u.bufCap = s.bufCap)
    (hpeek : ∀ a : Offset, hostWritable s.bufCap a → peek u a = peek s a) :
    ∃ w, exec .pack u = .next w ∧ ∀ a : Offset, packWrites a → peek w a = peek t a := by
  obtain ⟨n, ver, c, proto, flags, hn, hlen, hv, hc, hp, hf, hcases⟩ := execPack_cases h
  have hinputs := packInputs_of_peek hpeek ⟨hn, hv, hc, hp, hf⟩
  obtain ⟨hlong, rfl⟩ | ⟨hfits, ext, hl, hext, rfl⟩ := hcases
  · exact ⟨_, exec_pack_of_long hinputs (by omega) hlong, fun _ => raiseFail_pack_peek _ _ _⟩
  · refine ⟨_, exec_pack_of_bytes hinputs (by omega) hfits hl fun x hx => ?_, fun _ => packDone_peek _ _ _ _ _ _ _⟩
    rw [read_inBuf_of_peek hpeek hcap (by omega) (by omega), hext x hx]

/-- Settles O27: the frame of the command, and its outputs from its inputs alone. -/
theorem packChangesOnlyItsResults : Obligations.PackChangesOnlyItsResults := by
  intro s t h
  obtain ⟨hin, hhost⟩ := exec_frame h
  refine ⟨fun a ha => ?_, hin, hhost, fun v => exec_pack_of_same_inputs h⟩
  exact exec_peek h (fun hstatus => ha (.inl hstatus)) (fun _ => ha) (by simp)

end Sys2Proof.Machine
end

section
/-! PROOF of O34 to O40 and O55. UNPACK on prepared operands is one of four equations, decided by IN_LEN and the four
header bytes; the round trip takes what PACK built (O24) through the equations for nonzero flags and for a whole header. -/

namespace Sys2Proof.Machine

variable {s t u : State}

/-! ### The answers of a prepared UNPACK -/

theorem flagsFromWire_eq_zero_iff (b2 b3 : Byte) : flagsFromWire b2 b3 = 0 ↔ b2 = 0 ∧ b3 = 0 :=
  joinBytes_inj (c := 0) (d := 0)

/-- hlen as the source's mask (R55, R70). -/
theorem headerLenOf_toNat_mask (b : Byte) : (b &&& 0x1F#8).toNat = (headerLenOf b).toNat := by
  rw [← headerLenOf_eq_mask]
  exact BitVec.toNat_setWidth_of_le (by decide)

section
variable {n : Half} {b0 b1 b2 b3 : Byte} (hn : readReg .inLen s = some n) (hcap : n.toNat ≤ s.bufCap)
  (hheader : inHeader s b0 b1 b2 b3)
include hn hcap hheader

/-- Nonzero flags make UNPACK fail before hlen is looked at (R70, R85). -/
theorem exec_unpack_of_flags (hlong : 4 ≤ n.toNat) (hflags : flagsFromWire b2 b3 ≠ 0) :
    exec .unpack s = .next (raiseFail .unpack .unsupportedFlags s) := by
  rw [exec_unpack_of_header hn hcap hlong hheader, if_pos hflags]

/-- An extension that is not all there makes UNPACK fail (R70, R84). -/
theorem exec_unpack_of_truncated (hlong : 4 ≤ n.toNat) (hflags : flagsFromWire b2 b3 = 0)
    (hlen : n.toNat < 4 + 4 * (headerLenOf b0).toNat) :
    exec .unpack s = .next (raiseFail .unpack .truncatedHeader s) := by
  rw [exec_unpack_of_header hn hcap hlong hheader, if_neg (not_not.2 hflags)]
  exact if_pos hlen

/-- A whole header with zero flags makes UNPACK succeed (R69). -/
theorem exec_unpack_of_whole (hflags : flagsFromWire b2 b3 = 0) (hlen : 4 + 4 * (headerLenOf b0).toNat ≤ n.toNat) :
    exec .unpack s = .next (unpackDone n.toNat b0 b1 0 s) := by
  rw [exec_unpack_of_header hn hcap (by omega) hheader, if_neg (not_not.2 hflags), hflags]
  exact if_neg (Nat.not_lt.2 hlen)

theorem exec_unpack_next_of_header (hlong : 4 ≤ n.toNat) : ∃ t, exec .unpack s = .next t := by
  by_cases hflags : flagsFromWire b2 b3 = 0
  · by_cases hlen : n.toNat < 4 + 4 * (headerLenOf b0).toNat
    · exact ⟨_, exec_unpack_of_truncated hn hcap hheader hlong hflags hlen⟩
    · exact ⟨_, exec_unpack_of_whole hn hcap hheader hflags (Nat.not_lt.1 hlen)⟩
  · exact ⟨_, exec_unpack_of_flags hn hcap hheader hlong hflags⟩

end

/-- What every failure of UNPACK leaves (R83, R88). -/
theorem exec_unpack_failure {f : Failure} (h : exec .unpack s = .next (raiseFail .unpack f s)) :
    ∃ t, exec .unpack s = .next t ∧ statusIs t (failureStatus .unpack f) ∧ unpackPoisoned t ∧ t.inBuf = s.inBuf :=
  ⟨_, h, raiseFail_statusIs .., raiseFail_unpackPoisoned f s, raiseFail_inBuf ..⟩

/-- Settles O34: UNPACK succeeds, and each register of its result reads as R22 to R30 say. -/
theorem unpackReportsFieldsAndViews : Obligations.UnpackReportsFieldsAndViews := by
  intro s n b0 b1 hn hcap hheader hlen
  have hread := unpackDone_readReg n.toNat b0 b1 0 s
  exact ⟨_, exec_unpack_of_whole hn hcap hheader rfl hlen, unpackDone_statusIs .., hread .uVersion, hread .uC,
    hread .uHlen, joinBytes_zero b1 ▸ hread .uProtocol, hread .uFlags, hread .uExtOff, hread .uExtLen, hread .uPayOff,
    hread .uPayLen, unpackDone_inBuf ..⟩

/-- Settles O35, by the three equations of an UNPACK that fails. -/
theorem unpackFailuresByCondition : Obligations.UnpackFailuresByCondition := by
  intro s n hn hcap
  refine ⟨fun hshort => ?_, fun b0 b1 b2 b3 hlong hheader hflags => ?_, fun b0 b1 hlong hheader hlen => ?_⟩
  · exact exec_unpack_failure (exec_unpack_of_short hn hcap hshort)
  · refine exec_unpack_failure (exec_unpack_of_flags hn hcap hheader hlong ?_)
    rwa [Ne, flagsFromWire_eq_zero_iff, not_and_or]
  · rw [headerLenOf_toNat_mask] at hlen
    exact exec_unpack_failure (exec_unpack_of_truncated hn hcap hheader hlong rfl hlen)

/-- Settles O36: the frame of the command. -/
theorem unpackChangesOnlyItsResults : Obligations.UnpackChangesOnlyItsResults := by
  intro s t h
  obtain ⟨hin, hhost⟩ := exec_frame h
  refine ⟨fun a ha => ?_, hin, exec_out h (by simp), hhost⟩
  exact exec_peek h (fun hstatus => ha (.inl hstatus)) (by simp) (fun _ => ha)

/-! ### When UNPACK answers, and its faults -/

/-- The four header bytes are written exactly when they hold some header. -/
theorem inWritten_four_iff : inWritten s 4 ↔ ∃ b0 b1 b2 b3, inHeader s b0 b1 b2 b3 := by
  constructor
  · intro h
    obtain ⟨b0, hb0⟩ := h 0 (by omega)
    obtain ⟨b1, hb1⟩ := h 1 (by omega)
    obtain ⟨b2, hb2⟩ := h 2 (by omega)
    obtain ⟨b3, hb3⟩ := h 3 (by omega)
    exact ⟨b0, b1, b2, b3, hb0, hb1, hb2, hb3⟩
  · rintro ⟨b0, b1, b2, b3, hb0, hb1, hb2, hb3⟩ j hj
    interval_cases j
    · exact ⟨b0, hb0⟩
    · exact ⟨b1, hb1⟩
    · exact ⟨b2, hb2⟩
    · exact ⟨b3, hb3⟩

/-- Settles O38: an answer needs IN_LEN and, past the first length check, the header; and these suffice. -/
theorem unpackAnswersExactlyWhenPrepared : Obligations.UnpackAnswersExactlyWhenPrepared := by
  intro s
  constructor
  · rintro ⟨t, h⟩
    obtain ⟨n, hn, hcap, hcases⟩ := execUnpack_cases h
    refine ⟨n, hn, hcap, fun hlong => ?_⟩
    obtain ⟨hshort, -⟩ | ⟨-, b0, b1, b2, b3, hb0, hb1, hb2, hb3, -⟩ := hcases
    · omega
    · exact inWritten_four_iff.2 ⟨b0, b1, b2, b3, hb0, hb1, hb2, hb3⟩
  · rintro ⟨n, hn, hcap, hin⟩
    by_cases hlong : 4 ≤ n.toNat
    · obtain ⟨b0, b1, b2, b3, hheader⟩ := inWritten_four_iff.1 (hin hlong)
      exact exec_unpack_next_of_header hn hcap hheader hlong
    · exact ⟨_, exec_unpack_of_short hn hcap (by omega)⟩

/-- The four reads of the header bytes are one range read, which faults on the first unwritten byte. -/
theorem needIn_four_eq_needInRange (i : Instr) (s : State) (k : Byte → Byte → Byte → Byte → Answer) :
    (needIn i 0 s fun b0 => needIn i 1 s fun b1 => needIn i 2 s fun b2 => needIn i 3 s fun b3 => k b0 b1 b2 b3) =
      needInRange i 0 4 s (fun bs => k bs[0]! bs[1]! bs[2]! bs[3]!) := rfl

/-- Settles O39: IN_LEN faults, or UNPACK goes on to the four header bytes (R89). -/
theorem unpackFaultsInOrder : Obligations.UnpackFaultsInOrder := by
  intro s
  have hunpack : exec .unpack s = execUnpack s := rfl
  rw [execUnpack] at hunpack
  refine ⟨fun h => hunpack.trans (needLength_of_none h), fun n hn =>
    ⟨fun h => hunpack.trans (needLength_of_large hn h), fun m hcap hlong hm hw hu => ?_⟩⟩
  have hwritten : ∀ x, x < m → ∃ b, Memory.read s.inBuf (0 + x) = some b := fun x hx => by simpa using hw x hx
  have hnotShort : ¬ n.toNat < hdrFixed := Nat.not_lt.2 hlong
  rw [hunpack, needLength_of_fits hn hcap, if_neg hnotShort, needIn_four_eq_needInRange,
    needInRange_fault hm hwritten (by rwa [Nat.zero_add]), Nat.zero_add]

/-! ### What of IN enters the answer -/

/-- R71: with IN_LEN below 4 the bytes of IN need not agree. -/
theorem execUnpack_agree_of_bytes_read {R : State → State → Prop} (hlen : readReg .inLen u = readReg .inLen s)
    (hin : ∀ n, readReg .inLen s = some n → 4 ≤ n.toNat →
      ∀ j, j < 4 → Memory.read u.inBuf j = Memory.read s.inBuf j) (hcap : u.bufCap = s.bufCap)
    (hfail : ∀ f, R (raiseFail .unpack f s) (raiseFail .unpack f u))
    (hdone : ∀ n b0 proto flags, R (unpackDone n b0 proto flags s) (unpackDone n b0 proto flags u)) :
    Agree R (exec .unpack s) (exec .unpack u) := by
  cases hn : readReg .inLen s with
  | none =>
    rw [(unpackFaultsInOrder s).1 hn, (unpackFaultsInOrder u).1 (hlen.trans hn)]
    exact .fault _
  | some n =>
    have hn' : readReg .inLen u = some n := hlen.trans hn
    by_cases hlong : 4 ≤ n.toNat
    · exact execUnpack_agree hlen (hin n hn hlong) hcap hfail hdone
    · by_cases hfits : n.toNat ≤ s.bufCap
      · rw [exec_unpack_of_short hn hfits (by omega), exec_unpack_of_short hn' (by omega) (by omega)]
        exact .next (hfail _)
      · rw [((unpackFaultsInOrder s).2 n hn).1 (by omega), ((unpackFaultsInOrder u).2 n hn').1 (by omega)]
        exact .fault _

/-- Settles O37: IN is replaced in the answer as it was before UNPACK. -/
theorem unpackReadsAtMostFourBytes : Obligations.UnpackReadsAtMostFourBytes := by
  intro s m hin
  have hagree : Agree (fun t w => w = { t with inBuf := m }) (exec .unpack s) (exec .unpack { s with inBuf := m }) :=
    execUnpack_agree_of_bytes_read rfl hin rfl (fun _ => rfl) (fun _ _ _ _ => rfl)
  refine ⟨fun t h => ?_, fun f => hagree.of_fault⟩
  obtain ⟨w, hw, rfl⟩ := hagree.of_next h
  exact hw

/-- What O40 says of the state `w` after UNPACK of a header with byte 0 equal to `b'`, where `t` is the state after
UNPACK of the header as it was. -/
def sameButVersionAndControl (b' : Byte) (t w : State) : Prop :=
  w.out = t.out ∧ (∀ a, a ≠ 0x10 → a ≠ 0x11 → Memory.read w.regs a = Memory.read t.regs a) ∧
  (statusIs t 0x21#8 → readReg .uVersion w = some ((versionOf b').setWidth 16) ∧
    readReg .uC w = some ((controlOf b').setWidth 16))

section
variable (hregs : u.regs = s.regs) (hout : u.out = s.out)
include hregs hout

theorem raiseFail_sameButVersionAndControl (b' : Byte) (f : Failure) :
    sameButVersionAndControl b' (raiseFail .unpack f s) (raiseFail .unpack f u) := by
  refine ⟨hout, fun a _ _ => by rw [raiseFail_regs_of_regs hregs], fun hstatus => ?_⟩
  have hcode := statusIs_unique hstatus (raiseFail_statusIs .unpack f s)
  cases f <;> exact absurd hcode (by decide)

theorem unpackDone_sameButVersionAndControl {b b' : Byte} (hb : headerLenOf b' = headerLenOf b) (n : Nat) (proto : Byte)
    (flags : Half) :
    sameButVersionAndControl b' (unpackDone n b proto flags s) (unpackDone n b' proto flags u) := by
  refine ⟨by simpa using hout, fun a h10 h11 => ?_, fun _ => ⟨unpackDone_readReg .., unpackDone_readReg ..⟩⟩
  simp only [unpackDone_read_regs, h10, h11, if_false, hb, hregs]

/-- UNPACK goes the same way with another version and C, as only hlen of byte 0 enters a check (R60, R73). -/
theorem execUnpack_agree_of_headerLen {b b' : Byte} (hcap : u.bufCap = s.bufCap)
    (hb : Memory.read s.inBuf 0 = some b) (hb' : Memory.read u.inBuf 0 = some b')
    (hrest : ∀ j, j ≠ 0 → Memory.read u.inBuf j = Memory.read s.inBuf j) (hlen : headerLenOf b' = headerLenOf b) :
    Agree (sameButVersionAndControl b') (execUnpack s) (execUnpack u) := by
  have hfail := raiseFail_sameButVersionAndControl hregs hout b'
  refine needLength_agree (readReg_of_regs hregs _) hcap fun n => ?_
  split
  · exact .next (hfail _)
  · rw [needIn_of_some hb, needIn_of_some hb', hlen]
    refine needIn_agree (hrest 1 (by decide)) fun b1 => needIn_agree (hrest 2 (by decide)) fun b2 => ?_
    refine needIn_agree (hrest 3 (by decide)) fun b3 => ?_
    split
    · exact .next (hfail _)
    · split
      · exact .next (hfail _)
      · exact .next (unpackDone_sameButVersionAndControl hregs hout hlen _ _ _)

end

/-- Settles O40: of byte 0 only hlen decides which way UNPACK goes. -/
theorem unpackCarriesVersionAndControl : Obligations.UnpackCarriesVersionAndControl := by
  intro s t b b' hb hlen h
  have hagree := execUnpack_agree_of_headerLen (s := s) (u := { s with inBuf := Memory.write 0 b' s.inBuf })
    rfl rfl rfl hb (Memory.read_write_same 0 b' s.inBuf) (fun j hj => Memory.read_write_ne hj.symm b' s.inBuf) hlen
  exact hagree.of_next h

/-! ### The round trip (R76) -/

/-- An hlen that PACK accepts is kept by the 5 bits of byte 0 (R63). -/
theorem hlenField_toNat {k : Nat} (hk : k ≤ 31) : (BitVec.ofNat 5 k).toNat = k := by
  rw [BitVec.toNat_ofNat]
  exact Nat.mod_eq_of_lt (by omega)

/-- Settles O55: IN holds what PACK built (O24), so UNPACK fails on its flags or reports its fields and views. -/
theorem packThenUnpackGivesTheHeaderBack : Obligations.PackThenUnpackGivesTheHeaderBack := by
  intro s t u n ver c proto flags payload len hinputs hcap hfits hin hpack hcopy hpayload hlenReg hlen hlenCap
  obtain ⟨t', hpack', -, -, -, hout0, hout1, hout2, hout3, hext, hpad, -⟩ :=
    packBuildsTheWireBytes s n ver c proto flags hinputs hcap hfits hin
  obtain rfl := Host.Outcome.next.inj (hpack.symm.trans hpack')
  generalize hk : (n.toNat + 3) / 4 = k at *
  have hheader : inHeader u (headerByte0 (ver.extractLsb' 0 2) (c.extractLsb' 0 1) (BitVec.ofNat 5 k))
      (proto.extractLsb' 0 8) (highByte flags) (lowByte flags) :=
    ⟨(hcopy 0 (by omega)).trans hout0, (hcopy 1 (by omega)).trans hout1, (hcopy 2 (by omega)).trans hout2,
      (hcopy 3 (by omega)).trans hout3⟩
  have hwire : flagsFromWire (highByte flags) (lowByte flags) = flags := joinBytes_high_low flags
  by_cases hflags : flags = 0
  · have hhlen := hlenField_toNat (show k ≤ 31 by omega)
    refine ⟨_, exec_unpack_of_whole hlenReg hlenCap hheader (hwire.trans hflags) ?_, fun h => absurd hflags h,
      fun _ => ⟨unpackDone_statusIs .., ?_⟩⟩
    · rw [headerLenOf_headerByte0, hhlen]
      omega
    · simp only [unpackDone_readReg, unpackDone_inBuf, versionOf_headerByte0, controlOf_headerByte0,
        headerLenOf_headerByte0, ← BitVec.ofNat_toNat, hhlen, joinBytes_zero, true_and]
      have hextLen : (BitVec.ofNat 16 (4 * k)).toNat = 4 * k := by rw [BitVec.toNat_ofNat]; omega
      have hpayOff : (BitVec.ofNat 16 (headerBytes k)).toNat = 4 + 4 * k := by
        rw [BitVec.toNat_ofNat, headerBytes, hdrFixed]; omega
      have hpayLen : (BitVec.ofNat 16 (len.toNat - headerBytes k)).toNat = payload.length := by
        rw [BitVec.toNat_ofNat, headerBytes, hdrFixed]; omega
      refine ⟨rfl, _, _, _, _, rfl, rfl, rfl, rfl, hextLen, fun i hi => ?_, fun i hi hi' => ?_, hpayLen, ?_⟩
      · exact (hcopy (4 + i) (by omega)).trans (hext i hi)
      · rw [hextLen] at hi'
        exact (hcopy (4 + i) (by omega)).trans (hpad i hi hi')
      · rwa [hpayOff]
  · exact ⟨_, exec_unpack_of_flags hlenReg hlenCap hheader (by omega) (by rwa [hwire]),
      fun _ => raiseFail_statusIs .., fun h => absurd h hflags⟩

end Sys2Proof.Machine
end

section
/-! PROOF of O32 and O33. The flags converter on bytes, and what it makes of the two flags bytes in PACK, in UNPACK and
in the host's 2-byte accesses. -/

namespace Sys2Proof.Machine

variable {s t : State}

/-! ### The converter's two operations (R78 to R80) -/

@[simp] theorem flagsFromWire_flagsToWire (f : Half) : flagsFromWire (flagsToWire f).1 (flagsToWire f).2 = f :=
  joinBytes_high_low f

@[simp] theorem flagsToWire_flagsFromWire (b2 b3 : Byte) : flagsToWire (flagsFromWire b2 b3) = (b2, b3) :=
  Prod.ext (highByte_joinBytes b2 b3) (lowByte_joinBytes b2 b3)

/-- Settles O32, by the two inverse laws and the injectivity of joining two bytes. -/
theorem flagsConverterIsABijection : Obligations.FlagsConverterIsABijection :=
  ⟨flagsFromWire_flagsToWire, flagsToWire_flagsFromWire, flagsFromWire_eq_zero_iff⟩

/-! ### The flags bytes of a command that succeeds -/

/-- The flags bytes that PACK lays out are the wire bytes of H_FLAGS (R62, R78). -/
theorem exec_pack_flags_bytes (h : exec .pack s = .next t) (hstatus : statusIs t 0x11#8) :
    ∃ flags, readReg .hFlags s = some flags ∧
      Memory.read t.out 2 = some (flagsToWire flags).1 ∧ Memory.read t.out 3 = some (flagsToWire flags).2 := by
  obtain ⟨n, ver, c, proto, flags, -, -, -, -, -, hflags, ⟨-, rfl⟩ | ⟨-, ext, -, -, rfl⟩⟩ := execPack_cases h
  · exact absurd (statusIs_unique hstatus (raiseFail_statusIs ..)) (by decide)
  · exact ⟨flags, hflags, rfl, rfl⟩

/-- U_FLAGS holds the flags value of wire bytes 2 and 3 (R69, R79). -/
theorem exec_unpack_uFlags (h : exec .unpack s = .next t) (hstatus : statusIs t 0x21#8) :
    ∃ b2 b3, Memory.read s.inBuf 2 = some b2 ∧ Memory.read s.inBuf 3 = some b3 ∧
      readReg .uFlags t = some (flagsFromWire b2 b3) := by
  have hfail : ∀ f, ¬ statusIs (raiseFail .unpack f s) 0x21#8 := fun f hf =>
    absurd (statusIs_unique hf (raiseFail_statusIs ..)) (by cases f <;> decide)
  obtain ⟨n, -, -, ⟨-, rfl⟩ | ⟨-, b0, b1, b2, b3, -, -, h2, h3, ⟨-, rfl⟩ | ⟨-, -, rfl⟩ | ⟨-, -, rfl⟩⟩⟩ :=
    execUnpack_cases h
  · exact absurd hstatus (hfail _)
  · exact absurd hstatus (hfail _)
  · exact absurd hstatus (hfail _)
  · exact ⟨b2, b3, h2, h3, unpackDone_readReg _ _ _ _ _ .uFlags⟩

/-! ### The host's 2-byte accesses -/

/-- A 2-byte write at an even offset answers where the host may write both bytes (R40, R42). -/
theorem memWrite_two_answers {a : Offset} (v : Half) (heven : a.toNat % 2 = 0) (ha : hostWritable s.bufCap a)
    (ha1 : hostWritable s.bufCap (a + 1)) : ∃ t, memWrite a 2 v s = .next t := by
  obtain ⟨u, hu⟩ := storeByte_ok_of_writable (.access .write a 2) (lowByte v) ha
  obtain ⟨-, -, -, hcap, -⟩ := storeByte_inv hu
  obtain ⟨t, ht⟩ := storeByte_ok_of_writable (.access .write a 2) (highByte v) (hcap ▸ ha1)
  exact ⟨t, memWrite_two_next_iff.2 (memStore_two_ok_iff.2 ⟨heven, u, hu, ht⟩)⟩

/-- A 2-byte write at 0x06 sets H_FLAGS, low byte first (R41). -/
theorem memWrite_hFlags (s : State) (f : Half) :
    ∃ t, memWrite 0x06 2 f s = .next t ∧
      Memory.read t.regs 0x06 = some (lowByte f) ∧ Memory.read t.regs 0x07 = some (highByte f) := by
  obtain ⟨t, ht⟩ := memWrite_two_answers (a := 0x06) (s := s) f rfl (by simp [hostWritable]) (by simp [hostWritable])
  obtain ⟨-, -, -, hlo, hhi⟩ := memWrite_two_stores ht
  exact ⟨t, ht, hlo, hhi⟩

/-- A 2-byte read at 0x14 gives U_FLAGS (R41). -/
theorem memRead_uFlags {f : Half} (h : readReg .uFlags s = some f) : memRead 0x14 2 s = .ok f := by
  obtain ⟨hlo, hhi⟩ := bytes_of_readReg h
  exact memRead_two_ok_iff.2 ⟨rfl, memRead_one_ok_iff.2 ⟨.inr (by simp [hostReadOnly]), hlo⟩,
    memRead_one_ok_iff.2 ⟨.inr (by simp [hostReadOnly]), hhi rfl⟩⟩

/-- Settles O33: the registers hold a flags value low byte first, and the converter gives and takes it high byte
first. -/
theorem converterSwapsTheFlagsBytes : Obligations.ConverterSwapsTheFlagsBytes := by
  refine ⟨fun s t h hstatus => ?_, fun s t h hstatus => ?_, fun s f => ?_, fun s f => memRead_uFlags⟩
  · obtain ⟨flags, hflags, hout2, hout3⟩ := exec_pack_flags_bytes h hstatus
    obtain ⟨hlo, hhi⟩ := bytes_of_readReg hflags
    exact ⟨hout2.trans (hhi rfl).symm, hout3.trans hlo.symm⟩
  · obtain ⟨b2, b3, hin2, hin3, hflags⟩ := exec_unpack_uFlags h hstatus
    obtain ⟨hlo, hhi⟩ := bytes_of_readReg hflags
    rw [flagsFromWire, lowByte_joinBytes] at hlo
    rw [flagsFromWire, highByte_joinBytes] at hhi
    exact ⟨(hhi rfl).trans hin2.symm, hlo.trans hin3.symm⟩
  · obtain ⟨t, ht, hlo, hhi⟩ := memWrite_hFlags s f
    exact ⟨t, ht, joinBytes_high_low f ▸ readReg_of_bytes rfl hlo hhi, hlo, hhi⟩

end Sys2Proof.Machine
end

section
/-! PROOF of O9, O25, O41, O43 and O46. Exceptions: what raised a model fault, which STATUS is whose, what a typed
failure leaves, and that no earlier command enters the answer of a later one. -/

namespace Sys2Proof.Machine

variable {s t u : State}

/-! ### What raised a model fault (R90) -/

/-- A host write faults as the access, or at CMD as the command that its byte decodes to. -/
theorem memWrite_fault_origin {a : Offset} {w : Nat} {v : Half} {f : Fault} (h : memWrite a w v s = .fault f) :
    (¬ (w = 1 ∧ a = 0) ∧ f.origin = .access .write a w) ∨
    ((w = 1 ∧ a = 0) ∧ f.origin = .command (decodeByte (lowByte v))) := by
  by_cases hcmd : w = 1 ∧ a = 0
  · obtain ⟨rfl, rfl⟩ := hcmd
    rw [memWrite_cmd] at h
    exact .inr ⟨⟨rfl, rfl⟩, exec_fault_origin h⟩
  · rw [memWrite_of_store hcmd] at h
    split at h
    · cases h
    · rename_i g hstore
      obtain rfl := Host.Outcome.fault.inj h
      exact .inl ⟨hcmd, memStore_fault_origin hstore⟩

theorem jumpTo_ne_fault (l : Label) (s : State) (f : Fault) : jumpTo l s ≠ .fault f := by
  unfold jumpTo
  split <;> nofun

/-- Only a line that reads or writes can fault, and its fault records the access or the command. -/
theorem runLine_fault_origin {op : HostOp} {f : Fault} (h : runLine op s = .fault f) :
    (∃ a w x, op = .read a w x ∧ f.origin = .access .read a w) ∨
    (∃ a w d, op = .write a w d ∧ ¬ (w = 1 ∧ a = 0) ∧ f.origin = .access .write a w) ∨
    (∃ d, op = .write 0 1 d ∧ f.origin = .command (decodeByte (lowByte (hostData d s)))) := by
  cases op with
  | write a w d =>
    obtain ⟨hstore, horigin⟩ | ⟨⟨rfl, rfl⟩, horigin⟩ := memWrite_fault_origin h
    · exact .inr (.inl ⟨a, w, d, rfl, hstore, horigin⟩)
    · exact .inr (.inr ⟨d, rfl, horigin⟩)
  | read a w x =>
    obtain ⟨hnext, hfault⟩ := runLine_read a w x s
    cases hread : memRead a w s with
    | ok v =>
      rw [hnext v hread] at h
      cases h
    | error g =>
      rw [hfault g hread] at h
      obtain rfl := Host.Outcome.fault.inj h
      exact .inl ⟨a, w, x, rfl, memRead_fault_origin hread⟩
  | bne x v l =>
    simp only [runLine] at h
    split at h
    · exact absurd h (jumpTo_ne_fault l s f)
    · cases h
  | jmp l => exact absurd h (jumpTo_ne_fault l s f)
  | halt => cases h
  | resetEvent => cases h

/-- Settles O9: a step that faults performs a line, and the line's fault records what raised it. -/
theorem faultRecordsWhatRaisedIt : Obligations.FaultRecordsWhatRaisedIt := by
  intro s f h
  cases hline : currentLine s with
  | none =>
    rw [step, hostStep, hline] at h
    cases h
  | some line =>
    rw [step_of_line hline] at h
    exact ⟨line, rfl, runLine_fault_origin h⟩

/-! ### Which STATUS is whose -/

/-- The STATUS that a command leaves is one of its own. -/
theorem exec_statusIs_mem_outcomes {i : Instr} {v : Byte} (h : exec i s = .next t) (hst : statusIs t v) :
    v ∈ outcomes i := by
  obtain ⟨w, hw, hst'⟩ := exec_outcome h
  exact statusIs_unique hst hst' ▸ hw

/-- ExtensionTooLarge is among the outcomes of PACK alone (R86). -/
theorem extensionTooLarge_not_mem_outcomes {i : Instr} (hi : i ≠ .pack) : 0x16#8 ∉ outcomes i := by
  cases i with
  | pack => exact absurd rfl hi
  | unpack => decide
  | illegal op rsv => simp [outcomes]

/-- Settles O25: IN_LEN alone decides between PACK's two answers, and no other command has this STATUS. -/
theorem packFailsOnTooLargeAnExtension : Obligations.PackFailsOnTooLargeAnExtension := by
  refine ⟨fun s n ver c proto flags h hcap hbig => ?_, fun s t n h hn => ⟨?_, by omega⟩, fun s t i hi h hst => ?_⟩
  · exact ⟨_, exec_pack_of_long h hcap (by omega), raiseFail_statusIs .pack .extensionTooLarge s,
      raiseFail_packPoisoned _ _⟩
  · obtain ⟨hst, hfits⟩ | ⟨hst, hlong⟩ := packFailsOnNothingButLength s t n h hn
    · exact iff_of_false (fun hst' => absurd (statusIs_unique hst hst') (by decide)) (by omega)
    · exact iff_of_true hst hlong
  · exact extensionTooLarge_not_mem_outcomes hi (exec_statusIs_mem_outcomes h hst)

/-! ### What a failure leaves -/

/-- Settles O41: the command answers, and its frame is every byte but STATUS. -/
theorem illegalCommandWritesOnlyStatus : Obligations.IllegalCommandWritesOnlyStatus := by
  intro s op rsv
  obtain ⟨t, h, hst, hpeek⟩ := exec_illegal_status op rsv s
  obtain ⟨hin, hhost⟩ := exec_frame h
  exact ⟨t, h, hst, hpeek, exec_out h nofun, hin, hhost⟩

/-- Settles O43: an answer without the STATUS of a success is a typed failure, and the frame is the command's. -/
theorem typedFailurePoisonsItsOwnSet : Obligations.TypedFailurePoisonsItsOwnSet := by
  refine fun s t => ⟨fun h hfail => ?_, fun h hfail => ?_⟩
  · obtain ⟨hframe, hin, -⟩ := packChangesOnlyItsResults s t h
    obtain ⟨-, hpoisoned⟩ | ⟨hst, -⟩ := exec_pack_outcome h
    · exact ⟨hpoisoned, hin, hframe⟩
    · exact absurd hst hfail
  · obtain ⟨hframe, hin, -⟩ := unpackChangesOnlyItsResults s t h
    obtain ⟨-, hpoisoned⟩ | ⟨hst, -⟩ := exec_unpack_outcome h
    · exact ⟨hpoisoned, hin, hframe⟩
    · exact absurd hst hfail

/-! ### A command after another command (R91) -/

/-- UNPACK's outputs agree by offset where their bytes agree. -/
theorem peek_unpackWrites_congr {a : Offset} (ha : unpackWrites a)
    (hregs : ∀ b, b = 0x01 ∨ (0x10 ≤ b ∧ b ≤ 0x1D) → Memory.read u.regs b = Memory.read t.regs b) :
    peek u a = peek t a := by
  have hreg : a.toNat < 0x40 := by unfold unpackWrites at ha; omega
  rw [peek_reg u hreg, peek_reg t hreg, hregs _ ha]

/-- Whatever state a typed failure of UNPACK meets, it leaves the same outputs (R83, R88). -/
theorem raiseFail_unpack_peek (f : Failure) (s u : State) {a : Offset} (ha : unpackWrites a) :
    peek (raiseFail .unpack f u) a = peek (raiseFail .unpack f s) a := by
  refine peek_unpackWrites_congr ha fun b hb => ?_
  rw [raiseFail_read_regs, raiseFail_read_regs]
  obtain rfl | hb := hb
  · rfl
  · simp only [hb, and_self, if_true]

/-- Whatever state an UNPACK that succeeds meets, it leaves the same outputs (R69). -/
theorem unpackDone_peek (n : Nat) (b0 proto : Byte) (flags : Half) (s u : State) {a : Offset} (ha : unpackWrites a) :
    peek (unpackDone n b0 proto flags u) a = peek (unpackDone n b0 proto flags s) a :=
  peek_unpackWrites_congr ha fun _ hb => unpackDone_read_result n b0 proto flags u s hb

/-- What O46 says of the states that command `j` leaves: its own results and STATUS are the same. -/
def sameOwnResults (j : Instr) (t w : State) : Prop :=
  (j = .pack → ∀ a : Offset, packWrites a → peek w a = peek t a) ∧
  (j = .unpack → ∀ a : Offset, unpackWrites a → peek w a = peek t a) ∧
  Memory.read w.regs 0x01 = Memory.read t.regs 0x01

theorem sameOwnResults_pack (h : ∀ a : Offset, packWrites a → peek u a = peek t a) : sameOwnResults .pack t u :=
  ⟨fun _ => h, nofun, h 0x01 (.inl rfl)⟩

theorem sameOwnResults_unpack (h : ∀ a : Offset, unpackWrites a → peek u a = peek t a) : sameOwnResults .unpack t u :=
  ⟨nofun, fun _ => h, h 0x01 (.inl rfl)⟩

/-- The answer of a command depends on its operand registers, IN and BUF_CAP alone (R62, R69, R87). -/
theorem exec_agree_of_operands (hregs : ∀ r ∈ operandRegs, readReg r u = readReg r s) (hin : u.inBuf = s.inBuf)
    (hcap : u.bufCap = s.bufCap) (j : Instr) : Agree (sameOwnResults j) (exec j s) (exec j u) := by
  cases j with
  | pack =>
    exact execPack_agree hregs hin hcap (sameOwnResults_pack fun _ => raiseFail_pack_peek _ s u)
      fun ver c proto flags ext => sameOwnResults_pack fun _ => packDone_peek ver c proto flags ext s u
  | unpack =>
    exact execUnpack_agree (hregs _ (by decide)) (fun _ _ => by rw [hin]) hcap
      (fun f => sameOwnResults_unpack fun _ => raiseFail_unpack_peek f s u)
      fun n b0 proto flags => sameOwnResults_unpack fun _ => unpackDone_peek n b0 proto flags s u
  | illegal op rsv =>
    have hstatus : ∀ v : State, statusIs (raiseFail .noCommand .illegalCommand v) 0x38#8 :=
      raiseFail_statusIs .noCommand .illegalCommand
    exact .next ⟨nofun, nofun, (hstatus u).trans (hstatus s).symm⟩

/-- Settles O46: the earlier command leaves the operands of the later one as they were. -/
theorem earlierCommandDoesNotAffectALaterOne : Obligations.EarlierCommandDoesNotAffectALaterOne := by
  intro s u i j h
  obtain ⟨hin, hcap, -⟩ := exec_frame h
  have hagree := exec_agree_of_operands (fun _ hr => exec_readReg_operand hr h) hin hcap j
  exact ⟨fun f => hagree.of_fault, fun t => hagree.of_next⟩

end Sys2Proof.Machine
end

section
/-! PROOF of O47, O48 and O49. The state after reset is one that the RESET event leaves as it is, so what the event does
to every state is said once and holds of that state too. -/

namespace Sys2Proof.Machine

/-- The bytes after reset are those that the RESET event leaves, and the event changes nothing else. -/
theorem applyReset_reset : applyReset State.reset = State.reset := rfl

/-! ### The block after the RESET event (R96) -/

/-- STATUS is the one byte of REGS that the RESET event leaves written. -/
theorem applyReset_read_regs (s : State) (i : Nat) :
    Memory.read (applyReset s).regs i = if i = 0x01 then some 0x00#8 else none := by
  rw [applyReset_regs, Memory.read, Memory.read_nil]
  exact if_congr eq_comm rfl rfl

/-- Every byte of the host space is one of REGS, OUT or IN, or none: after the RESET event STATUS alone holds a value. -/
theorem applyReset_peek (s : State) (a : Offset) :
    peek (applyReset s) a = if a.toNat = 0x01 then some 0x00#8 else none := by
  by_cases hreg : a.toNat < 0x40
  · rw [peek_reg _ hreg, applyReset_read_regs]
  · rw [if_neg (by omega), peek, locate_eq, if_neg hreg]
    split_ifs with hout hin
    · exact Memory.read_nil (a.toNat - 0x1000)
    · exact Memory.read_nil (a.toNat - 0x10000)
    · rfl

/-- Settles O47: the state after reset is one that the RESET event has left. -/
theorem resetUnwritesAllButStatus : Obligations.ResetUnwritesAllButStatus := by
  intro a
  rw [← applyReset_reset]
  exact applyReset_peek _ a

/-- Settles O48: the step moves the host to its next line and applies the RESET event, which leaves the host alone. -/
theorem resetEventUnwritesAllButStatus : Obligations.ResetEventUnwritesAllButStatus := by
  intro s line hline hop
  refine ⟨applyReset (advance s), ?_, ⟨rfl, rfl, rfl, rfl⟩, applyReset_peek _⟩
  rw [step_of_line hline, hop]
  rfl

/-! ### The invariants after reset -/

/-- The range of BUF_CAP (R2), whatever the implementation's value. -/
theorem bufCap_range : 128 ≤ Config.bufCap ∧ Config.bufCap ≤ 65535 := by
  have := Config.bufCapAboveMin.isLt
  unfold Config.bufCap
  omega

theorem reset_memoryLegal : State.reset.memoryLegal :=
  ⟨reset_wf, by simp [State.reset], by simp [State.reset], by simp [State.reset], bufCap_range⟩

theorem applyReset_registersLegal (s : State) : (applyReset s).registersLegal :=
  ⟨⟨0x00#8, by decide, applyReset_statusIs s⟩, applyReset_fieldsLegal s⟩

/-- Settles O49: nothing but STATUS is written, and it says that no command has run. -/
theorem resetMeetsEveryInvariant : Obligations.ResetMeetsEveryInvariant := by
  refine ⟨reset_memoryLegal, ?_⟩
  rw [← applyReset_reset]
  exact ⟨applyReset_registersLegal _, .inl (applyReset_packPoisoned _), .inl (applyReset_unpackPoisoned _),
    applyReset_statusTellsResults _⟩

end Sys2Proof.Machine
end
